-- ==== Sys2Proof/Word.lean ====
section
/-! DEFINITION. The widths the spec names (00_scope.md R7): all values are unsigned, bit 0 is the least significant. -/

namespace Sys2Proof

/-- `u8`: one byte of the sample buffer, of a payload or of a marker (R7). -/
abbrev Byte := BitVec 8

/-- `u32`: the command word and the 32-bit registers (R7). -/
abbrev Word32 := BitVec 32

/-- `u64`: the port data and the 64-bit registers (R7, R90). -/
abbrev Word64 := BitVec 64

end Sys2Proof
end

