-- ==== Sys2Proof/Config.lean ====
section
/-! DEFINITION. What is fixed for the machine: the parameters of 00_scope.md R6 with their defaults, the marker
constants (R13) and the framing overhead (R12). None of them is state (10_state.md R20). -/

namespace Sys2Proof

/-- The parameters a model takes as arguments (R6, R152). Every operation that depends on one takes a `Params`, and the
machine takes its own from the state it steps (`State.params`, log 23). MAX_BUF_BYTES is a 64-bit number, so that S and
CAP fit their registers at every value of it (R34, R137, D6; log 8). -/
structure Params where
  crcPoly     : Word32
  crcInit     : Word32
  crcXorout   : Word32
  maxBufBytes : Word64
  deriving DecidableEq, Repr

/-- The defaults of R6, which State.reset takes. PRESUMED (unsafe): the three CRC values are marked in the spec as general knowledge, not in
the source (D7, I1; log 7). DESIGN CHOICE (unsafe): the size bound (D6, I15; log 8). -/
def Config.defaults : Params where
  crcPoly := 0x04C11DB7
  crcInit := 0x00000000
  crcXorout := 0xFFFFFFFF
  maxBufBytes := 0xFFFFFFFFFFFFFFFF

/-- START_MARKER (R6): fixed, big-endian on the carrier. -/
def Config.startMarker : Word32 := 0x0F1F2FFF

/-- END_MARKER (R6): fixed, big-endian on the carrier. -/
def Config.endMarker : Word32 := 0x0E1E2EEE

/-- The framing overhead in bytes (R6, R12): 4 start, 4 end, 4 checksum. -/
def Config.framingOverhead : Nat := 12

end Sys2Proof
end

