-- ==== Sys2Proof/Machine/State.lean ====
section
/-! DEFINITION. Everything the spec gives the block (10_state.md R20): the register file of R21 to R42, the sample buffer
(20_memory.md R60), the payload source and sink (R70, R71); and four fields of the model's own: the host's coming turns,
the port's last read data, the last primitive's value, and the parameters the machine is built with (R6). Reset values
are those of R48. -/

namespace Sys2Proof.Machine

/-- STATUS.RESULT (30_encoding.md R97). Codes 7 to 15 are never produced (I21) and are not representable. -/
inductive ResultCode where
  | ok
  | capacityExceeded
  | unsupportedFormat
  | startNotFound
  | endNotFound
  | checksumMismatch
  | illegalCommand
  deriving DecidableEq, Repr

/-- STATUS.OP (10_state.md R28, R32): the opcode of the last accepted command; `none` is the reset value 0. Values 5 to 7
are never produced (I23) and are not representable. -/
inductive Opcode where
  | none
  | capacity
  | validate
  | encode
  | decode
  deriving DecidableEq, Repr

/-- STATUS.STAGE (R28): 0 = CHECK, 1 = RUN. -/
inductive Stage where
  | check
  | run
  deriving DecidableEq, Repr

/-- SCAN (R33): the document's ScanState, with the thirteen reachable values of R98 and no other (I22). -/
inductive ScanState where
  | seekStart (progress : Fin 4)
  | seekEnd (progress : Fin 4)
  | readCksum (progress : Fin 5)
  deriving DecidableEq, Repr

/-- The sample buffer (R60): its length in bytes and its cells, offsets strictly rising, none holding 0x00, all below
the length. An unlisted offset below the length holds 0x00; an offset at or beyond it does not exist (log 4). -/
structure Memory where
  size  : Nat
  cells : List Host.Cell
  deriving DecidableEq, Repr

/-- What a host does (00_scope.md R5): port transactions (R90), the host-memory lines of R105, WAIT (R106), attaching a
buffer and emptying the sink (R315), and the reset input (R310). -/
inductive HostAction where
  /-- `WR reg, data`: the transaction (1, reg, data). -/
  | write (reg : BitVec 8) (data : Word64)
  /-- `RD reg`: the transaction (0, reg, 0). -/
  | read (reg : BitVec 8)
  /-- `BUF offset: bytes`: the host writes bytes of its sample buffer. -/
  | buf (offset : Nat) (bytes : List Byte)
  /-- The host reads a byte of its sample buffer (R320). -/
  | bufRead (offset : Nat)
  /-- The host attaches a sample buffer holding exactly these bytes (R315, R321). -/
  | attach (bytes : List Byte)
  /-- `SRC bytes`: the host appends bytes to the payload source. -/
  | src (bytes : List Byte)
  /-- The host removes the first bytes of the payload source (R320). -/
  | srcDrop (count : Nat)
  /-- `SINK?`: the host reads the payload sink. -/
  | sinkRead
  /-- The host empties the payload sink (R71, R315). -/
  | sinkClear
  /-- `WAIT`: poll STATUS until BUSY reads 0 (R106). -/
  | wait
  /-- The reset input is asserted (R310). -/
  | reset
  deriving DecidableEq, Repr

/-- Which agent moves (R5, R90): the engine, or the host with an action (log 1). -/
inductive Turn where
  | engine
  | host (action : HostAction)
  deriving DecidableEq, Repr

/-- What a primitive that has no register for its result returned (log 9). -/
inductive PrimValue where
  | none
  | flag (b : Bool)
  | bit (b : BitVec 1)
  | byte (b : Byte)
  | word (w : Word32)
  /-- FRAMER_PULL's end-of-stream (R156). -/
  | endOfStream
  deriving DecidableEq, Repr

structure State where
  /-- 0x00 WIDTH (R21). -/
  width : Word32
  /-- 0x01 HEIGHT (R22). -/
  height : Word32
  /-- 0x02 CHANNELS (R23). -/
  channels : Word32
  /-- 0x03 DEPTH (R24). -/
  depth : Word32
  /-- 0x04 PAYLOAD_LEN (R25). -/
  payloadLen : Word64
  /-- 0x09 STATUS, bit 0 BUSY (R29). -/
  busy : Bool
  /-- 0x09 STATUS, bit 1 DONE (R30). -/
  done : Bool
  /-- 0x09 STATUS, bits 7:4 RESULT (R31). -/
  result : ResultCode
  /-- 0x09 STATUS, bits 10:8 OP (R32). -/
  op : Opcode
  /-- 0x09 STATUS, bit 11 STAGE (R32). -/
  stage : Stage
  /-- 0x0A SCAN (R33). -/
  scan : ScanState
  /-- 0x10 CAPACITY (R35). -/
  capacity : Word64
  /-- 0x11 CKSUM (R36). -/
  cksum : Word32
  /-- 0x12 STORED (R37). -/
  stored : Word32
  /-- 0x13 COUNT (R38). -/
  count : Word64
  /-- 0x14 CURSOR (R34). -/
  cursor : Word64
  /-- 0x15 CRC_ACC (R39). -/
  crcAcc : Word32
  /-- 0x16 FR_IDX (R40). -/
  frIdx : Word64
  /-- 0x17 FR_STATE, bits 7:0 FR_SHIFT (R41). -/
  frShift : Byte
  /-- 0x17 FR_STATE, bits 11:8 FR_BITS, 0 to 8 (R41); 9 to 15 are never produced (I24). -/
  frBits : Fin 9
  /-- 0x18 ASM, bits 7:0 AS_BYTE (R42). -/
  asByte : Byte
  /-- 0x18 ASM, bits 10:8 AS_CNT (R42). -/
  asCnt : BitVec 3
  /-- The sample buffer (R60), the host's. -/
  mem : Memory
  /-- The payload source (R70), the host's: the first byte is the next to be pulled. -/
  source : List Byte
  /-- The payload sink (R71), the host's: the last byte is the last pushed. -/
  sink : List Byte
  /-- The model's own: who moves next, first turn first; when it is empty the engine moves (log 1). -/
  turns : List Turn
  /-- The model's own: the data of the last port read (R44, R90; log 17). -/
  portOut : Word64
  /-- The model's own: the value of the last primitive run on its own (log 9). -/
  primOut : PrimValue
  /-- The parameters of R6 that every step takes as an argument (R20); no step writes them (log 23). -/
  params : Params
  deriving DecidableEq, Repr

/-- Why the machine stops. None is raised by a step from a state of the invariant with a long enough buffer attached. -/
inductive Fault where
  /-- Raised by a sample access at an offset of L or more, outside the address space (R73). Safe. -/
  | addressOutsideBuffer
  /-- Raised by a sample access at an offset below L that the attached buffer lacks: the host broke R321 (I10). Safe. -/
  | bufferShorterThanGeometry
  /-- Raised by a sample access when DEPTH is neither 8 nor 16, for which R63 gives no address. Safe. -/
  | depthNotLegal
  /-- Raised by ENCODE_STEP when it must pull and FR_IDX > M, against FRAMER_PULL's precondition (R157). Safe. -/
  | framerPastEnd
  /-- Raised by CHECK when STATUS.OP = 0, for which R134 names no case and which no acceptance leaves. Safe. -/
  | checkWithoutCommand
  deriving DecidableEq, Repr

/-- Why the machine gives an action no meaning. -/
inductive Refusal where
  /-- Raised by exec for an instruction not modelled yet (none is left). Safe. -/
  | notModelled (mnemonic : String)
  /-- Raised by a host access to the sample buffer while BUSY: the host has no such move (R320, I9). Safe. -/
  | bufferTouchedWhileBusy
  /-- Raised when the host removes source bytes while BUSY: the host has no such move (R320, I9). Safe. -/
  | sourceTakenWhileBusy
  /-- Raised by a host access outside the buffer it attached (R60, I10). Safe. -/
  | outsideAttachedBuffer
  deriving DecidableEq, Repr

/-- The machine with these parameters (R6) right after reset (R48): every register 0, the block idle. The buffer and the
streams are the host's and reset does not change them (R49); here none is attached and both streams are empty (DESIGN
CHOICE, unsafe; log 3). -/
def State.resetFor (p : Params) : State where
  width := 0
  height := 0
  channels := 0
  depth := 0
  payloadLen := 0
  busy := false
  done := false
  result := .ok
  op := .none
  stage := .check
  scan := .seekStart 0
  capacity := 0
  cksum := 0
  stored := 0
  count := 0
  cursor := 0
  crcAcc := 0
  frIdx := 0
  frShift := 0
  frBits := 0
  asByte := 0
  asCnt := 0
  mem := { size := 0, cells := [] }
  source := []
  sink := []
  turns := []
  portOut := 0
  primOut := .none
  params := p

/-- The machine with the default parameters of R6 right after reset (R48). -/
def State.reset : State := State.resetFor Config.defaults

end Sys2Proof.Machine
end

