-- ==== Sys2Proof/Machine/Memory.lean ====
section
/-! DEFINITION. The sample buffer as plain byte memory (20_memory.md R60, R66, R69). Every access is one byte. A write
keeps the canonical form of the cells: writing 0x00 removes the cell, so equal buffers are equal data (log 4). -/

namespace Sys2Proof.Machine

/-- The byte the cells give an offset; 0x00 if it is not listed. -/
def cellAt : List Host.Cell → Nat → Byte
  | [], _ => 0
  | (b, v) :: rest, a => if b = a then v else cellAt rest a

/-- The cells with the byte at one offset replaced. -/
def putCell : List Host.Cell → Nat → Byte → List Host.Cell
  | [], a, v => if v = 0 then [] else [(a, v)]
  | (b, w) :: rest, a, v =>
    if a < b then (if v = 0 then (b, w) :: rest else (a, v) :: (b, w) :: rest)
    else if a = b then (if v = 0 then rest else (a, v) :: rest)
    else (b, w) :: putCell rest a v

/-- The canonical form from offset `lo` on: strictly rising offsets below `size`, no cell holding 0x00. -/
def cellsWf (lo size : Nat) : List Host.Cell → Bool
  | [] => true
  | (a, v) :: rest => decide (lo ≤ a) && decide (a < size) && v != 0 && cellsWf (a + 1) size rest

/-- The buffer is in its canonical form. -/
def Memory.wf (m : Memory) : Bool := cellsWf 0 m.size m.cells

/-- `MemRead(a, 1)` (R10, R66): none where the attached buffer has no such offset. -/
def Memory.read (m : Memory) (a : Nat) : Option Byte :=
  if a < m.size then some (cellAt m.cells a) else none

/-- `MemWrite(a, 1, v)` (R10, R66): a write outside the attached buffer changes nothing. -/
def Memory.write (m : Memory) (a : Nat) (v : Byte) : Memory :=
  if a < m.size then { m with cells := putCell m.cells a v } else m

/-- Consecutive bytes from an offset on, the first byte at the offset. -/
def Memory.writeBytes (m : Memory) (a : Nat) : List Byte → Memory
  | [] => m
  | v :: rest => Memory.writeBytes (m.write a v) (a + 1) rest

/-- A buffer of exactly these bytes, the first at offset 0 (R315, R321). -/
def Memory.ofBytes (bytes : List Byte) : Memory :=
  Memory.writeBytes { size := bytes.length, cells := [] } 0 bytes

end Sys2Proof.Machine
end

