-- ==== Sys2Proof/Machine/Operands.lean ====
section
/-! DEFINITION. The derived quantities of 00_scope.md R12, computed exactly on naturals (R8) from the configuration
registers (30_encoding.md R95), the one effective-address computation (20_memory.md R63), and the marker bytes (R13). -/

namespace Sys2Proof.Machine

/-- S = WIDTH * HEIGHT * CHANNELS, exact (R8, R12). -/
def sampleCount (s : State) : Nat := s.width.toNat * s.height.toNat * s.channels.toNat

/-- BPS = DEPTH / 8 (R12). -/
def bytesPerSample (s : State) : Nat := s.depth.toNat / 8

/-- L = S * BPS (R12): the address space is the offsets below it (R73). -/
def bufferLength (s : State) : Nat := sampleCount s * bytesPerSample s

/-- CAP = S / 8, floor (R12, R35). -/
def capacityBytes (s : State) : Nat := sampleCount s / 8

/-- N = PAYLOAD_LEN (R12). -/
def payloadBytes (s : State) : Nat := s.payloadLen.toNat

/-- M = N + 12 (R12). -/
def framedBytes (s : State) : Nat := payloadBytes s + Config.framingOverhead

/-- SampleAddr(k) (R63): k when DEPTH = 8, 2k + 1 when DEPTH = 16; the rule gives no address for another DEPTH. -/
def sampleAddr (s : State) (k : Nat) : Option Nat :=
  if s.depth = 8 then some k
  else if s.depth = 16 then some (2 * k + 1)
  else none

/-- Byte n of a big-endian marker (R13, R74). -/
def markerByte (marker : Word32) (n : Nat) : Byte := (marker >>> (24 - 8 * n)).setWidth 8

/-- START[n], n in 0 to 3 (R13). -/
def startByte (n : Nat) : Byte := markerByte Config.startMarker n

/-- END[n], n in 0 to 3 (R13). -/
def endByte (n : Nat) : Byte := markerByte Config.endMarker n

/-- END[0..n-1], the bytes the scanner holds back in SE(n) (R229). -/
def heldBack (n : Nat) : List Byte := (List.range n).map endByte

end Sys2Proof.Machine
end

