-- ==== Sys2Proof/Machine/Flags.lean ====
section
/-! DEFINITION. The conditions and the register words: GeomOK (40_command_and_capacity.md R131), FramerExhausted
(41_framer.md R156), the capacity test (R136), and the words STATUS, SCAN, FR_STATE, ASM (10_state.md R28, R33, R41, R42;
30_encoding.md R96 to R98). -/

namespace Sys2Proof.Machine

/-- GeomOK() (R131): CHANNELS in 1 to 4, DEPTH 8 or 16, and the exact product L at most MAX_BUF_BYTES. -/
def geometryOk (p : Params) (s : State) : Bool :=
  (s.channels == 1 || s.channels == 2 || s.channels == 3 || s.channels == 4)
    && (s.depth == 8 || s.depth == 16)
    && decide (bufferLength s ≤ p.maxBufBytes.toNat)

/-- The failing capacity test of VALIDATE and ENCODE (R134, R136): N + 12 > CAP, exact. -/
def exceedsCapacity (s : State) : Bool := decide (payloadBytes s + Config.framingOverhead > capacityBytes s)

/-- FramerExhausted() (R156): FR_BITS = 0 and FR_IDX = M. -/
def framerExhausted (s : State) : Bool := decide (s.frBits.val = 0) && decide (s.frIdx.toNat = framedBytes s)

/-- The test CURSOR = S of both loop steps (R186, R222). -/
def samplesExhausted (s : State) : Bool := decide (s.cursor.toNat = sampleCount s)

/-- The numeric code of a result (R97). -/
def resultBits : ResultCode → Nat
  | .ok => 0
  | .capacityExceeded => 1
  | .unsupportedFormat => 2
  | .startNotFound => 3
  | .endNotFound => 4
  | .checksumMismatch => 5
  | .illegalCommand => 6

/-- The numeric opcode in STATUS.OP (R28, R92). -/
def opcodeBits : Opcode → Nat
  | .none => 0
  | .capacity => 1
  | .validate => 2
  | .encode => 3
  | .decode => 4

/-- STATUS.STAGE (R28). -/
def stageBit : Stage → Nat
  | .check => 0
  | .run => 1

/-- The STATUS word (R96): STAGE<<11 | OP<<8 | RESULT<<4 | DONE<<1 | BUSY; the other bits read 0 (R28). -/
def statusWord (s : State) : Word32 :=
  (BitVec.ofNat 32 (stageBit s.stage) <<< 11) ||| (BitVec.ofNat 32 (opcodeBits s.op) <<< 8)
    ||| (BitVec.ofNat 32 (resultBits s.result) <<< 4) ||| (BitVec.ofNat 32 s.done.toNat <<< 1)
    ||| BitVec.ofNat 32 s.busy.toNat

/-- SCAN.PHASE (R33). -/
def scanPhase : ScanState → Nat
  | .seekStart _ => 0
  | .seekEnd _ => 1
  | .readCksum _ => 2

/-- SCAN.PROGRESS (R33). -/
def scanProgress : ScanState → Nat
  | .seekStart n => n.val
  | .seekEnd n => n.val
  | .readCksum n => n.val

/-- The SCAN word (R98): PROGRESS<<4 | PHASE. -/
def scanWord (s : State) : Word32 :=
  (BitVec.ofNat 32 (scanProgress s.scan) <<< 4) ||| BitVec.ofNat 32 (scanPhase s.scan)

/-- The FR_STATE word (R41): FR_BITS in bits 11:8, FR_SHIFT in bits 7:0. -/
def frStateWord (s : State) : Word32 :=
  (BitVec.ofNat 32 s.frBits.val <<< 8) ||| s.frShift.setWidth 32

/-- The ASM word (R42): AS_CNT in bits 10:8, AS_BYTE in bits 7:0. -/
def asmWord (s : State) : Word32 :=
  (s.asCnt.setWidth 32 <<< 8) ||| s.asByte.setWidth 32

end Sys2Proof.Machine
end

