-- ==== Sys2Proof/Machine/Crc.lean ====
section
/-! DEFINITION. The checksum (41_framer.md R150 to R155) and its row CRC_UPDATE. The polynomial, the initial value and
the final exclusive-or are parameters; nothing is reflected (R151) and no length is appended (R152). -/

namespace Sys2Proof.Machine

/-- One of the eight rounds of CRC_UPDATE (R153). -/
def crcRound (p : Params) (c : Word32) : Word32 :=
  if c.msb then (c <<< 1) ^^^ p.crcPoly else c <<< 1

/-- `n` rounds. -/
def crcRounds (p : Params) : Nat → Word32 → Word32
  | 0, c => c
  | n + 1, c => crcRounds p n (crcRound p c)

/-- CRC_UPDATE(c, b) (R153): the byte enters at the top, most-significant bit first. -/
def crcUpdate (p : Params) (c : Word32) (b : Byte) : Word32 :=
  crcRounds p 8 (c ^^^ (b.setWidth 32 <<< 24))

/-- CRC_FINAL(c) (R154). -/
def crcFinal (p : Params) (c : Word32) : Word32 := c ^^^ p.crcXorout

/-- The running CRC of a byte sequence, not finalized (R154, R188). -/
def crcFold (p : Params) (bytes : List Byte) : Word32 := bytes.foldl (crcUpdate p) p.crcInit

/-- CRC32(P) (R154). -/
def crc32 (p : Params) (bytes : List Byte) : Word32 := crcFinal p (crcFold p bytes)

/-- CRC_UPDATE (R153) run on its own: the value goes to the primitive's output (log 9). -/
def execCrcUpdate (c : Word32) (b : Byte) (s : State) : Host.Outcome State Fault Refusal :=
  .next { s with primOut := .word (crcUpdate s.params c b) }

end Sys2Proof.Machine
end

