-- ==== Sys2Proof/Machine/Ops.lean ====
section
/-! DEFINITION. The named operations over registers, buffer and streams: the completion primitive, the block's only
exception-like operation (00_scope.md R11, 60_exceptions.md R279); the start of a command and the refusal of an illegal
word (40_command_and_capacity.md R130, R133); the register port (10_state.md R26, R43 to R45); the sample access
(20_memory.md R63 to R69); the streams (R70, R71); reset (70_reset_and_hazards.md R310). -/

namespace Sys2Proof.Machine

/-- complete(code) (R11, R279): clears BUSY and STAGE, sets DONE, writes RESULT; saves and restores nothing. -/
def complete (code : ResultCode) (s : State) : State :=
  { s with busy := false, done := true, stage := .check, result := code }

/-- The accepted half of R130: BUSY, DONE, OP and STAGE as a new command leaves them, every working register cleared
(R312), RESULT and the configuration registers kept (D14). -/
def beginCommand (p : Params) (op : Opcode) (s : State) : State :=
  { s with
    busy := true, done := false, op := op, stage := .check
    capacity := 0, cksum := 0, stored := 0, count := 0, cursor := 0
    crcAcc := p.crcInit
    frIdx := 0, frShift := 0, frBits := 0
    asByte := 0, asCnt := 0
    scan := .seekStart 0 }

/-- A legal command word other than NOP on CMD (R130): ignored while BUSY. -/
def startCommand (p : Params) (op : Opcode) (s : State) : State :=
  if s.busy then s else beginCommand p op s

/-- An illegal command word on CMD (R133): DONE and RESULT only; ignored while BUSY. -/
def refuseCommand (s : State) : State :=
  if s.busy then s else { s with done := true, result := .illegalCommand }

/-- STATUS.OP <- w[2:0] for a legal word (R130). -/
def opcodeOf (w : Word32) : Opcode :=
  match (w.setWidth 3).toNat with
  | 1 => .capacity
  | 2 => .validate
  | 3 => .encode
  | 4 => .decode
  | _ => .none

/-- The whole of R130: what a write of this word to CMD does. -/
def acceptWord (p : Params) (w : Word32) (s : State) : State :=
  if s.busy then s
  else if w = 0 then s
  else if w >>> 4 ≠ 0 ∨ (w.setWidth 4).toNat > 4 then { s with done := true, result := .illegalCommand }
  else beginCommand p (opcodeOf w) s

/-- The value of a register on the port, zero-extended to 64 bits (R43, R44): CMD and unassigned numbers read 0. -/
def portRead (s : State) (reg : BitVec 8) : Word64 :=
  match reg.toNat with
  | 0x00 => s.width.setWidth 64
  | 0x01 => s.height.setWidth 64
  | 0x02 => s.channels.setWidth 64
  | 0x03 => s.depth.setWidth 64
  | 0x04 => s.payloadLen
  | 0x09 => (statusWord s).setWidth 64
  | 0x0A => (scanWord s).setWidth 64
  | 0x10 => s.capacity
  | 0x11 => s.cksum.setWidth 64
  | 0x12 => s.stored.setWidth 64
  | 0x13 => s.count
  | 0x14 => s.cursor
  | 0x15 => s.crcAcc.setWidth 64
  | 0x16 => s.frIdx
  | 0x17 => (frStateWord s).setWidth 64
  | 0x18 => (asmWord s).setWidth 64
  | _ => 0

/-- A port write to a register other than CMD (R26, R43, R44): a configuration register takes the low bits when idle
and keeps its value when BUSY; every other register ignores the write. -/
def portWrite (reg : BitVec 8) (data : Word64) (s : State) : State :=
  if s.busy then s
  else
    match reg.toNat with
    | 0x00 => { s with width := data.setWidth 32 }
    | 0x01 => { s with height := data.setWidth 32 }
    | 0x02 => { s with channels := data.setWidth 32 }
    | 0x03 => { s with depth := data.setWidth 32 }
    | 0x04 => { s with payloadLen := data }
    | _ => s

/-- The offset of sample k's byte inside the address space (R63, R73): no address for another DEPTH, none at L or
beyond. -/
def sampleOffset (s : State) (k : Nat) : Except Fault Nat :=
  match sampleAddr s k with
  | none => .error .depthNotLegal
  | some a => if a < bufferLength s then .ok a else .error .addressOutsideBuffer

/-- `MemRead(SampleAddr(k), 1)` (R63, R66). -/
def readSample (s : State) (k : Nat) : Except Fault Byte :=
  match sampleOffset s k with
  | .error f => .error f
  | .ok a =>
    match s.mem.read a with
    | none => .error .bufferShorterThanGeometry
    | some b => .ok b

/-- `MemWrite(SampleAddr(k), 1, v)` (R63, R66). -/
def writeSample (k : Nat) (v : Byte) (s : State) : Except Fault State :=
  match sampleOffset s k with
  | .error f => .error f
  | .ok a =>
    if a < s.mem.size then .ok { s with mem := s.mem.write a v } else .error .bufferShorterThanGeometry

/-- SourcePull() (R70): the first byte of the source and the state without it; none while the source is empty. -/
def sourcePull (s : State) : Option (Byte × State) :=
  match s.source with
  | [] => none
  | b :: rest => some (b, { s with source := rest })

/-- SinkPush(b) (R71): appends b; the sink always accepts. -/
def sinkPush (b : Byte) (s : State) : State := { s with sink := s.sink ++ [b] }

/-- The reset input (R310, R48, R49): every register takes its reset value; the buffer and the streams, the parameters
(R6), and the model's own fields, stay as they are (log 16). -/
def applyReset (s : State) : State :=
  { State.resetFor s.params with
    mem := s.mem, source := s.source, sink := s.sink
    turns := s.turns, portOut := s.portOut, primOut := s.primOut }

/-- RESET (R310). -/
def execReset (s : State) : Host.Outcome State Fault Refusal := .next (applyReset s)

end Sys2Proof.Machine
end

