-- ==== Sys2Proof/Machine/Command.lean ====
section
/-! DEFINITION. The command words and the CHECK stage (40_command_and_capacity.md). A command word's meaning is the host
step that writes it to CMD (R130); the CHECK step and the loop steps that follow are the engine's own steps, one at a
time (R134, R186, R222; log 21). -/

namespace Sys2Proof.Machine

/-- NOP (R132): nothing, idle or BUSY. -/
def execNop (s : State) : Host.Outcome State Fault Refusal := .next s

/-- CAPACITY (R135), accepted by R130; its CHECK step computes CAP. -/
def execCapacity (s : State) : Host.Outcome State Fault Refusal := .next (startCommand s.params .capacity s)

/-- VALIDATE (R136), accepted by R130; its CHECK step compares N + 12 with CAP. -/
def execValidate (s : State) : Host.Outcome State Fault Refusal := .next (startCommand s.params .validate s)

/-- ENCODE (R188), accepted by R130; CHECK and the ENCODE loop steps do the rest. -/
def execEncode (s : State) : Host.Outcome State Fault Refusal := .next (startCommand s.params .encode s)

/-- DECODE (R224), accepted by R130; CHECK and the DECODE loop steps do the rest. -/
def execDecode (s : State) : Host.Outcome State Fault Refusal := .next (startCommand s.params .decode s)

/-- RESERVED_5 (R133). -/
def execReserved5 (s : State) : Host.Outcome State Fault Refusal := .next (refuseCommand s)

/-- RESERVED_6_7 (R133): the low bit makes no difference. -/
def execReserved67 (_low : BitVec 1) (s : State) : Host.Outcome State Fault Refusal := .next (refuseCommand s)

/-- RESERVED_8_F (R133): the low bits make no difference. -/
def execReserved8F (_low : BitVec 3) (s : State) : Host.Outcome State Fault Refusal := .next (refuseCommand s)

/-- RESERVED_HIGH (R133): illegal whatever OPCODE is. -/
def execReservedHigh (_rsvd : BitVec 28) (_opcode : BitVec 4) (s : State) : Host.Outcome State Fault Refusal :=
  .next (refuseCommand s)

/-- ACCEPT (R130): the port write of DATA to CMD; DATA[63:32] is ignored (R91). -/
def execAccept (data : Word64) (s : State) : Host.Outcome State Fault Refusal :=
  .next (acceptWord s.params (data.setWidth 32) s)

/-- The CHECK step on a state where it is enabled (R134): format first, then CAPACITY <- CAP, then the capacity test
of VALIDATE and ENCODE. -/
def checkBody (p : Params) (s : State) : Host.Outcome State Fault Refusal :=
  if geometryOk p s then
    let t : State := { s with capacity := BitVec.ofNat 64 (capacityBytes s) }
    match s.op with
    | .none => .fault .checkWithoutCommand
    | .capacity => .next (complete .ok t)
    | .validate => .next (if exceedsCapacity s then complete .capacityExceeded t else complete .ok t)
    | .encode => .next (if exceedsCapacity s then complete .capacityExceeded t else { t with stage := .run })
    | .decode => .next { t with stage := .run }
  else .next (complete .unsupportedFormat s)

/-- CHECK (R134), enabled when BUSY = 1 and STAGE = 0; where it is not enabled there is no step and nothing changes
(log 10). -/
def execCheck (s : State) : Host.Outcome State Fault Refusal :=
  if s.busy = true ∧ s.stage = .check then checkBody s.params s else .next s

/-- GEOM_OK (R131) run on its own: the truth value goes to the primitive's output (log 9). -/
def execGeomOk (s : State) : Host.Outcome State Fault Refusal :=
  .next { s with primOut := .flag (geometryOk s.params s) }

end Sys2Proof.Machine
end

