-- ==== Sys2Proof/Machine/Framer.lean ====
section
/-! DEFINITION. The bit framer (41_framer.md R156 to R160). -/

namespace Sys2Proof.Machine

/-- What a pull of the framer answers (R156, R157): a byte with the state after it, a hold on an empty source, or
end-of-stream. -/
inductive Pull where
  | byte (b : Byte) (s : State)
  | hold
  | endOfStream
  deriving DecidableEq, Repr

/-- FR_IDX <- i + 1, the last line of a pull (R157). -/
def advanceFramer (s : State) : State := { s with frIdx := s.frIdx + 1 }

/-- Checksum byte j, the first in bits 31:24 (R99, R157). -/
def checksumByte (c : Word32) (j : Nat) : Byte := (c >>> (24 - 8 * j)).setWidth 8

/-- FramerPull() (R157): START, then the payload from the source folded into CRC_ACC, then END, then the checksum. -/
def framerPull (p : Params) (s : State) : Pull :=
  let i := s.frIdx.toNat
  let n := payloadBytes s
  if i < 4 then .byte (startByte i) (advanceFramer s)
  else if i < n + 4 then
    match sourcePull s with
    | none => .hold
    | some (b, t) => .byte b (advanceFramer { t with crcAcc := crcUpdate p t.crcAcc b })
  else if i < n + 8 then .byte (endByte (i - n - 4)) (advanceFramer s)
  else if i < n + 12 then .byte (checksumByte (crcFinal p s.crcAcc) (i - n - 8)) (advanceFramer s)
  else .endOfStream

/-- FRAMER_PULL (R157) run on its own: the byte, or end-of-stream (R156), goes to the primitive's output (log 9, 11). A
hold changes nothing (R70; log 12). -/
def execFramerPull (s : State) : Host.Outcome State Fault Refusal :=
  match framerPull s.params s with
  | .byte b t => .next { t with primOut := .byte b }
  | .hold => .next s
  | .endOfStream => .next { s with primOut := .endOfStream }

end Sys2Proof.Machine
end

