-- ==== Sys2Proof/Machine/Codec.lean ====
section
/-! DEFINITION. The sample-plane codec and ENCODE (42_sample_codec.md). -/

namespace Sys2Proof.Machine

/-- SET_LSB(s, bit) = (s & 0xFE) | bit (R180). -/
def setLsb (sample : Byte) (bit : BitVec 1) : Byte := (sample &&& 0xFE) ||| bit.setWidth 8

/-- GET_LSB(s) = s & 0x01 (R181). -/
def getLsb (sample : Byte) : BitVec 1 := (sample &&& 0x01).setWidth 1

/-- EMBED_STEP(k, bit) (R184): one byte read, its bit 0 replaced, the byte written back, all in one step (R68). -/
def embedStep (k : Nat) (bit : BitVec 1) (s : State) : Except Fault State :=
  match readSample s k with
  | .error f => .error f
  | .ok b => writeSample k (setLsb b bit) s

/-- FR_SHIFT[7], the next bit to embed (R41, R186). -/
def nextFrameBit (s : State) : BitVec 1 := (s.frShift >>> 7).setWidth 1

/-- Refill (R185): when FR_BITS = 0 the next framed byte is pulled; otherwise the state as it is (the byte is not
looked at then). -/
def refill (p : Params) (s : State) : Pull :=
  if s.frBits.val = 0 then
    match framerPull p s with
    | .byte b t => .byte b { t with frShift := b, frBits := 8, count := t.count + 1 }
    | .hold => .hold
    | .endOfStream => .endOfStream
  else .byte s.frShift s

/-- FR_SHIFT <- FR_SHIFT << 1; FR_BITS <- FR_BITS - 1; CURSOR <- CURSOR + 1 (R186). -/
def shiftFrame (s : State) : State :=
  { s with
    frShift := s.frShift <<< 1
    frBits := ⟨s.frBits.val - 1, by omega⟩
    cursor := s.cursor + 1 }

/-- ENCODE_COMPLETE (R187). -/
def encodeComplete (p : Params) (s : State) : State :=
  complete .ok { s with cksum := crcFinal p s.crcAcc }

/-- The embedding half of the ENCODE loop step (R186): refill, embed at CURSOR, shift. A hold changes nothing. -/
def encodeSample (p : Params) (s : State) : Host.Outcome State Fault Refusal :=
  match refill p s with
  | .hold => .next s
  | .endOfStream => .fault .framerPastEnd
  | .byte _ t =>
    match embedStep t.cursor.toNat (nextFrameBit t) t with
    | .error f => .fault f
    | .ok u => .next (shiftFrame u)

/-- The ENCODE loop step on a state where it is enabled (R186): exhaustion is tested before the cursor (D25). -/
def encodeBody (p : Params) (s : State) : Host.Outcome State Fault Refusal :=
  if framerExhausted s then .next (encodeComplete p s)
  else if samplesExhausted s then .next (encodeComplete p s)
  else encodeSample p s

/-- ENCODE_STEP (R186), enabled when BUSY = 1, STAGE = 1, OP = 3; where it is not enabled nothing changes (log 10). -/
def execEncodeStep (s : State) : Host.Outcome State Fault Refusal :=
  if s.busy = true ∧ s.stage = .run ∧ s.op = .encode then encodeBody s.params s else .next s

/-- ENCODE_COMPLETE (R187) run on its own. -/
def execEncodeComplete (s : State) : Host.Outcome State Fault Refusal := .next (encodeComplete s.params s)

/-- ENCODE_TRUNCATE (R189): CURSOR = S before the framer is exhausted completes OK; otherwise the branch is not taken
and nothing changes (log 10). DESIGN CHOICE (log 24): R189 speaks of the loop step only; run alone where STATUS does not
select that step (BUSY 0, STAGE 0 or OP not 3) this does the same, its test reading CURSOR and the framer alone. -/
def execEncodeTruncate (s : State) : Host.Outcome State Fault Refusal :=
  if framerExhausted s = false ∧ samplesExhausted s = true then .next (encodeComplete s.params s) else .next s

/-- EMBED_STEP (R184) run on its own. -/
def execEmbedStep (k : Word64) (bit : BitVec 1) (s : State) : Host.Outcome State Fault Refusal :=
  match embedStep k.toNat bit s with
  | .error f => .fault f
  | .ok t => .next t

/-- SET_LSB (R180) run on its own: the byte goes to the primitive's output (log 9). -/
def execSetLsb (sample : Byte) (bit : BitVec 1) (s : State) : Host.Outcome State Fault Refusal :=
  .next { s with primOut := .byte (setLsb sample bit) }

/-- GET_LSB (R181) run on its own: the bit goes to the primitive's output (log 9). -/
def execGetLsb (sample : Byte) (s : State) : Host.Outcome State Fault Refusal :=
  .next { s with primOut := .bit (getLsb sample) }

end Sys2Proof.Machine
end

