-- ==== Sys2Proof/Machine/Scanner.lean ====
section
/-! DEFINITION. The marker scanner and DECODE (43_marker_scan.md). An arm run on its own where SCAN and c do not select it
changes nothing (log 10). -/

namespace Sys2Proof.Machine

/-- EMIT(b) (R230). -/
def emitByte (p : Params) (b : Byte) (s : State) : State :=
  let t := sinkPush b { s with crcAcc := crcUpdate p s.crcAcc b }
  { t with count := t.count + 1 }

/-- EMIT of each byte in order (R232). -/
def emitBytes (p : Params) : List Byte → State → State
  | [], s => s
  | b :: rest, s => emitBytes p rest (emitByte p b s)

/-- SS match, n < 3 (R226). -/
def ssMatch (c : Byte) (s : State) : State :=
  match s.scan with
  | .seekStart n =>
    if h : n.val < 3 then
      if c = startByte n.val then { s with scan := .seekStart ⟨n.val + 1, by omega⟩ } else s
    else s
  | .seekEnd _ => s
  | .readCksum _ => s

/-- SS match, n = 3 (R227). -/
def ssMatchLast (c : Byte) (s : State) : State :=
  match s.scan with
  | .seekStart n => if n.val = 3 ∧ c = startByte 3 then { s with scan := .seekEnd 0 } else s
  | .seekEnd _ => s
  | .readCksum _ => s

/-- SS mismatch (R228): the byte is discarded and not compared with START[0]. -/
def ssMismatch (c : Byte) (s : State) : State :=
  match s.scan with
  | .seekStart n => if c ≠ startByte n.val then { s with scan := .seekStart 0 } else s
  | .seekEnd _ => s
  | .readCksum _ => s

/-- SE match, n < 3 (R229): the byte is held back. -/
def seMatch (c : Byte) (s : State) : State :=
  match s.scan with
  | .seekStart _ => s
  | .seekEnd n =>
    if h : n.val < 3 then
      if c = endByte n.val then { s with scan := .seekEnd ⟨n.val + 1, by omega⟩ } else s
    else s
  | .readCksum _ => s

/-- SE match, n = 3 (R231): the end marker is confirmed and not emitted. -/
def seMatchLast (c : Byte) (s : State) : State :=
  match s.scan with
  | .seekStart _ => s
  | .seekEnd n => if n.val = 3 ∧ c = endByte 3 then { s with scan := .readCksum 0 } else s
  | .readCksum _ => s

/-- SE mismatch (R232, R233): the held-back bytes, then c, are emitted; c is not compared with END[0]. -/
def seMismatch (p : Params) (c : Byte) (s : State) : State :=
  match s.scan with
  | .seekStart _ => s
  | .seekEnd n =>
    if c ≠ endByte n.val then
      { emitByte p c (emitBytes p (heldBack n.val) s) with scan := .seekEnd 0 }
    else s
  | .readCksum _ => s

/-- RC, n < 4 (R236). -/
def rcByte (c : Byte) (s : State) : State :=
  match s.scan with
  | .seekStart _ => s
  | .seekEnd _ => s
  | .readCksum n =>
    if h : n.val < 4 then
      { s with stored := (s.stored <<< 8) ||| c.setWidth 32, scan := .readCksum ⟨n.val + 1, by omega⟩ }
    else s

/-- SCAN_BYTE(c) (R225, R237): the one arm that SCAN and c select; RC(4) takes no byte (R236). -/
def scanByte (p : Params) (c : Byte) (s : State) : State :=
  match s.scan with
  | .seekStart n =>
    if c ≠ startByte n.val then ssMismatch c s
    else if n.val < 3 then ssMatch c s
    else ssMatchLast c s
  | .seekEnd n =>
    if c ≠ endByte n.val then seMismatch p c s
    else if n.val < 3 then seMatch c s
    else seMatchLast c s
  | .readCksum _ => rcByte c s

/-- The terminal success state (R33, R222). -/
def scanTerminal (s : State) : Bool := decide (s.scan = .readCksum 4)

/-- The code DECODE_COMPLETE reports (R223), with CKSUM already written. -/
def decodeResult (s : State) : ResultCode :=
  match s.scan with
  | .seekStart _ => .startNotFound
  | .seekEnd _ => .endNotFound
  | .readCksum n =>
    if n.val = 4 then (if s.cksum = s.stored then .ok else .checksumMismatch) else .endNotFound

/-- DECODE_COMPLETE (R223). -/
def decodeComplete (p : Params) (s : State) : State :=
  let t : State := { s with cksum := crcFinal p s.crcAcc }
  complete (decodeResult t) t

/-- AS_BYTE <- ((AS_BYTE << 1) | bit)[7:0]; CURSOR <- CURSOR + 1 (R103, R222). -/
def assembleBit (bit : BitVec 1) (s : State) : State :=
  { s with asByte := (s.asByte <<< 1) ||| bit.setWidth 8, cursor := s.cursor + 1 }

/-- The end of a DECODE loop step (R222): the eighth bit feeds the byte to the scanner. -/
def feedScanner (p : Params) (s : State) : State :=
  if s.asCnt = 7 then scanByte p s.asByte { s with asCnt := 0 } else { s with asCnt := s.asCnt + 1 }

/-- The DECODE loop step on a state where it is enabled (R222): the terminal test comes first (D25). -/
def decodeBody (p : Params) (s : State) : Host.Outcome State Fault Refusal :=
  if scanTerminal s then .next (decodeComplete p s)
  else if samplesExhausted s then .next (decodeComplete p s)
  else
    match readSample s s.cursor.toNat with
    | .error f => .fault f
    | .ok b => .next (feedScanner p (assembleBit (getLsb b) s))

/-- DECODE_STEP (R222), enabled when BUSY = 1, STAGE = 1, OP = 4; where it is not enabled nothing changes (log 10). -/
def execDecodeStep (s : State) : Host.Outcome State Fault Refusal :=
  if s.busy = true ∧ s.stage = .run ∧ s.op = .decode then decodeBody s.params s else .next s

/-- DECODE_COMPLETE (R223) run on its own. -/
def execDecodeComplete (s : State) : Host.Outcome State Fault Refusal := .next (decodeComplete s.params s)

/-- SCAN_BYTE (R225) run on its own. -/
def execScanByte (c : Byte) (s : State) : Host.Outcome State Fault Refusal := .next (scanByte s.params c s)

/-- SS_MATCH (R226) run on its own. -/
def execSsMatch (c : Byte) (s : State) : Host.Outcome State Fault Refusal := .next (ssMatch c s)

/-- SS_MATCH_LAST (R227) run on its own. -/
def execSsMatchLast (c : Byte) (s : State) : Host.Outcome State Fault Refusal := .next (ssMatchLast c s)

/-- SS_MISMATCH (R228) run on its own. -/
def execSsMismatch (c : Byte) (s : State) : Host.Outcome State Fault Refusal := .next (ssMismatch c s)

/-- SE_MATCH (R229) run on its own. -/
def execSeMatch (c : Byte) (s : State) : Host.Outcome State Fault Refusal := .next (seMatch c s)

/-- SE_MATCH_LAST (R231) run on its own. -/
def execSeMatchLast (c : Byte) (s : State) : Host.Outcome State Fault Refusal := .next (seMatchLast c s)

/-- SE_MISMATCH (R232) run on its own. -/
def execSeMismatch (c : Byte) (s : State) : Host.Outcome State Fault Refusal := .next (seMismatch s.params c s)

/-- RC_BYTE (R236) run on its own. -/
def execRcByte (c : Byte) (s : State) : Host.Outcome State Fault Refusal := .next (rcByte c s)

/-- EMIT (R230) run on its own. -/
def execEmit (b : Byte) (s : State) : Host.Outcome State Fault Refusal := .next (emitByte s.params b s)

end Sys2Proof.Machine
end

