-- ==== Sys2Proof/Syntax.lean ====
section
/-! DEFINITION. The instructions: one constructor for each of the 32 rows of spec/opcode_table.json. The block is not a
processor (00_scope.md R1): nine rows are command words written to CMD (30_encoding.md R92), one is the host step that
writes them, three are engine steps selected by STATUS, one is the reset input, and the others are the primitives those
steps are made of. A primitive's operands are the arguments its rule gives it. -/

namespace Sys2Proof

inductive Instr where
  /-- NOP, word 0x00000000 (R132). -/
  | nop
  /-- CAPACITY, word 0x00000001 (R135). -/
  | capacity
  /-- VALIDATE, word 0x00000002 (R136). -/
  | validate
  /-- ENCODE, word 0x00000003 (R188). -/
  | encode
  /-- DECODE, word 0x00000004 (R224). -/
  | decode
  /-- RESERVED_5, word 0x00000005 (R133). -/
  | reserved5
  /-- RESERVED_6_7, words 0x6 and 0x7: `low` is bit 0 (R133). -/
  | reserved67 (low : BitVec 1)
  /-- RESERVED_8_F, words 0x8 to 0xF: `low` is bits 2:0 (R133). -/
  | reserved8F (low : BitVec 3)
  /-- RESERVED_HIGH, any word whose bits 31:4 are not 0: RSVD is bits 31:4, OPCODE bits 3:0 (R91, R133). -/
  | reservedHigh (rsvd : BitVec 28) (opcode : BitVec 4)
  /-- ACCEPT, the host step on the port: the transaction (1, 0x08, DATA) (R90, R130). -/
  | accept (data : Word64)
  /-- CHECK, the engine step of BUSY = 1, STAGE = 0 (R134). -/
  | check
  /-- GEOM_OK, the geometry check (R131). -/
  | geomOk
  /-- ENCODE_STEP, the engine step of BUSY = 1, STAGE = 1, OP = 3 (R186). -/
  | encodeStep
  /-- ENCODE_COMPLETE (R187). -/
  | encodeComplete
  /-- ENCODE_TRUNCATE (R189). -/
  | encodeTruncate
  /-- FRAMER_PULL (R157). -/
  | framerPull
  /-- EMBED_STEP(k, bit) (R184). -/
  | embedStep (k : Word64) (bit : BitVec 1)
  /-- SET_LSB(s, bit) (R180). -/
  | setLsb (sample : Byte) (bit : BitVec 1)
  /-- GET_LSB(s) (R181). -/
  | getLsb (sample : Byte)
  /-- DECODE_STEP, the engine step of BUSY = 1, STAGE = 1, OP = 4 (R222). -/
  | decodeStep
  /-- DECODE_COMPLETE (R223). -/
  | decodeComplete
  /-- SCAN_BYTE(c) (R225). -/
  | scanByte (c : Byte)
  /-- SS_MATCH, the scanner's arm of R226. -/
  | ssMatch (c : Byte)
  /-- SS_MATCH_LAST, the scanner's arm of R227. -/
  | ssMatchLast (c : Byte)
  /-- SS_MISMATCH, the scanner's arm of R228. -/
  | ssMismatch (c : Byte)
  /-- SE_MATCH, the scanner's arm of R229. -/
  | seMatch (c : Byte)
  /-- SE_MATCH_LAST, the scanner's arm of R231. -/
  | seMatchLast (c : Byte)
  /-- SE_MISMATCH, the scanner's arm of R232. -/
  | seMismatch (c : Byte)
  /-- RC_BYTE, the scanner's arm of R236. -/
  | rcByte (c : Byte)
  /-- EMIT(b) (R230). -/
  | emit (b : Byte)
  /-- CRC_UPDATE(c, b) (R153). -/
  | crcUpdate (c : Word32) (b : Byte)
  /-- RESET, the reset input (R310). -/
  | reset
  deriving DecidableEq, Repr

end Sys2Proof
end

