-- ==== Sys2Proof/Machine/Dispatch.lean ====
section
/-! DEFINITION. The dispatch of an instruction to its meaning, one arm per row of spec/opcode_table.json. -/

namespace Sys2Proof.Machine

def exec (i : Instr) (s : State) : Host.Outcome State Fault Refusal :=
  match i with
  -- command words
  | .nop => Sys2Proof.Machine.execNop s
  | .capacity => Sys2Proof.Machine.execCapacity s
  | .validate => Sys2Proof.Machine.execValidate s
  | .encode => Sys2Proof.Machine.execEncode s
  | .decode => Sys2Proof.Machine.execDecode s
  | .reserved5 => Sys2Proof.Machine.execReserved5 s
  | .reserved67 low => Sys2Proof.Machine.execReserved67 low s
  | .reserved8F low => Sys2Proof.Machine.execReserved8F low s
  | .reservedHigh rsvd opcode => Sys2Proof.Machine.execReservedHigh rsvd opcode s
  -- host step and CHECK
  | .accept data => Sys2Proof.Machine.execAccept data s
  | .check => Sys2Proof.Machine.execCheck s
  | .geomOk => Sys2Proof.Machine.execGeomOk s
  -- ENCODE
  | .encodeStep => Sys2Proof.Machine.execEncodeStep s
  | .encodeComplete => Sys2Proof.Machine.execEncodeComplete s
  | .encodeTruncate => Sys2Proof.Machine.execEncodeTruncate s
  | .framerPull => Sys2Proof.Machine.execFramerPull s
  | .embedStep k bit => Sys2Proof.Machine.execEmbedStep k bit s
  | .setLsb sample bit => Sys2Proof.Machine.execSetLsb sample bit s
  | .getLsb sample => Sys2Proof.Machine.execGetLsb sample s
  -- DECODE
  | .decodeStep => Sys2Proof.Machine.execDecodeStep s
  | .decodeComplete => Sys2Proof.Machine.execDecodeComplete s
  | .scanByte c => Sys2Proof.Machine.execScanByte c s
  | .ssMatch c => Sys2Proof.Machine.execSsMatch c s
  | .ssMatchLast c => Sys2Proof.Machine.execSsMatchLast c s
  | .ssMismatch c => Sys2Proof.Machine.execSsMismatch c s
  | .seMatch c => Sys2Proof.Machine.execSeMatch c s
  | .seMatchLast c => Sys2Proof.Machine.execSeMatchLast c s
  | .seMismatch c => Sys2Proof.Machine.execSeMismatch c s
  | .rcByte c => Sys2Proof.Machine.execRcByte c s
  | .emit b => Sys2Proof.Machine.execEmit b s
  | .crcUpdate c b => Sys2Proof.Machine.execCrcUpdate c b s
  -- reset input
  | .reset => Sys2Proof.Machine.execReset s

end Sys2Proof.Machine
end

