-- ==== Sys2Proof/WellFormed.lean ====
section
/-! DEFINITION. Which instructions stand for something the hardware has. The field widths of Instr leave one check:
RESERVED_HIGH is a word whose bits 31:4 are not 0 (30_encoding.md R92, R93). -/

namespace Sys2Proof

/-- R93: with bits 31:4 all 0 the word belongs to one of the exact rows. Every other operand is a full field. -/
def Instr.wellFormed : Instr → Bool
  | .reservedHigh rsvd _ => rsvd != 0
  | .nop | .capacity | .validate | .encode | .decode | .reserved5 | .reserved67 _ | .reserved8F _ => true
  | .accept _ | .check | .geomOk | .encodeStep | .encodeComplete | .encodeTruncate | .framerPull => true
  | .embedStep _ _ | .setLsb _ _ | .getLsb _ | .decodeStep | .decodeComplete => true
  | .scanByte _ | .ssMatch _ | .ssMatchLast _ | .ssMismatch _ => true
  | .seMatch _ | .seMatchLast _ | .seMismatch _ | .rcByte _ => true
  | .emit _ | .crcUpdate _ _ | .reset => true

end Sys2Proof
end

