-- ==== Sys2Proof/Decode.lean ====
section
/-! DEFINITION. The command-word decoder and encoder (30_encoding.md R90 to R94). A command word is 32 bits of port data
on register 0x08; there is no byte order and no fetch (20_memory.md R79). Every 32-bit word decodes: a legal word to its
command, any other to one of the reserved rows, by name. The rows of engine steps, primitives and the reset input have
no word (opcode_table.json, "encoding": "none ..."). -/

namespace Sys2Proof

/-- The register number of CMD (10_state.md, register map). -/
def cmdReg : BitVec 8 := 0x08

/-- R91: the OPCODE field, bits 3:0. -/
def opcodeField (w : Word32) : BitVec 4 := w.setWidth 4

/-- R91: the RSVD field, bits 31:4. -/
def rsvdField (w : Word32) : BitVec 28 := (w >>> 4).setWidth 28

/-- R93: a command word is legal if and only if bits 31:4 are 0 and bits 3:0 are at most 4. -/
def isLegalCommand (w : Word32) : Bool :=
  rsvdField w == 0 && decide (opcodeField w ≤ 4)

/-- R92: the command a word stands for. The exact rows come first; the row of bits 31:4 not 0 is tested after them
(opcode_table.json), which is the same as testing RSVD first because the exact rows have RSVD = 0. -/
def decodeCommand (w : Word32) : Instr :=
  if rsvdField w = 0 then
    match (opcodeField w).toNat with
    | 0 => .nop
    | 1 => .capacity
    | 2 => .validate
    | 3 => .encode
    | 4 => .decode
    | 5 => .reserved5
    | 6 => .reserved67 0
    | 7 => .reserved67 1
    | _ => .reserved8F ((opcodeField w).setWidth 3)
  else .reservedHigh (rsvdField w) (opcodeField w)

/-- One transaction on the register port (R90): write enable, register number, data. -/
structure PortTransaction where
  we   : Bool
  reg  : BitVec 8
  data : Word64
  deriving DecidableEq, Repr

/-- The command word of the port data on CMD (R91): DATA[31:0]; DATA[63:32] is ignored. -/
def commandWord (data : Word64) : Word32 := data.setWidth 32

/-- The transaction that is the host step ACCEPT (R130): a write to CMD. Any other transaction is none. -/
def decodePort (t : PortTransaction) : Option Instr :=
  if t.we = true ∧ t.reg = cmdReg then some (.accept t.data) else none

/-- The encoder: the command word of an instruction that has one, written from R91 and R92. -/
def encode : Instr → Option Word32
  | .nop => some 0x00000000
  | .capacity => some 0x00000001
  | .validate => some 0x00000002
  | .encode => some 0x00000003
  | .decode => some 0x00000004
  | .reserved5 => some 0x00000005
  | .reserved67 low => some ((0x3 : BitVec 31) ++ low)
  | .reserved8F low => some ((0x1 : BitVec 29) ++ low)
  | .reservedHigh rsvd opcode => some (rsvd ++ opcode)
  | .accept _ | .check | .geomOk | .encodeStep | .encodeComplete | .encodeTruncate | .framerPull => none
  | .embedStep _ _ | .setLsb _ _ | .getLsb _ | .decodeStep | .decodeComplete => none
  | .scanByte _ | .ssMatch _ | .ssMatchLast _ | .ssMismatch _ => none
  | .seMatch _ | .seMatchLast _ | .seMismatch _ | .rcByte _ => none
  | .emit _ | .crcUpdate _ _ | .reset => none

/-- The encoder of the port (R90, R105): the transaction a host makes to give the instruction; a command word is
written to CMD with the upper half of DATA zero. Rows that are no host step have none. -/
def encodePort (i : Instr) : Option PortTransaction :=
  match i with
  | .accept data => some { we := true, reg := cmdReg, data := data }
  | i =>
    match encode i with
    | some w => some { we := true, reg := cmdReg, data := w.setWidth 64 }
    | none => none

/-- The port data of a table word: `nbits` bits of `w`, every bit above them 0. -/
def tableData (nbits w : Nat) : Word64 := BitVec.ofNat 64 (w % 2 ^ nbits)

/-- What the decoder reads from the table's numbering. The word goes to the port as DATA, bit 0 first; the decoder takes
DATA[31:0] (R91). More bits than the port has are no transaction (none). -/
def decodeTableWord (nbits w : Nat) : Option Instr :=
  if nbits ≤ 64 then some (decodeCommand (commandWord (tableData nbits w))) else none

end Sys2Proof
end

