-- ==== Sys2Proof/Machine/Fetch.lean ====
section
/-! DEFINITION. What the machine does next. The block fetches nothing (20_memory.md R79): a command comes from a host
write to CMD, an engine step is selected by STATUS, and reset is an input. The list of turns says who moves; when it is
empty the engine moves (log 1). -/

namespace Sys2Proof.Machine

/-- The next move: run an instruction on a state, or an action of the host with its outcome. -/
inductive Move where
  | run (i : Instr) (s : State)
  | done (o : Host.Outcome State Fault Refusal)

/-- The engine step STATUS selects (R134, R186, R222; opcode_table.json); an idle block has none (R48, R287). -/
def engineInstr (s : State) : Option Instr :=
  if s.busy then
    match s.stage, s.op with
    | .check, _ => some .check
    | .run, .encode => some .encodeStep
    | .run, .decode => some .decodeStep
    | .run, .none => none
    | .run, .capacity => none
    | .run, .validate => none
  else none

/-- The engine's turn: the enabled step, or nothing. -/
def engineMove (s : State) : Move :=
  match engineInstr s with
  | some i => .run i s
  | none => .done (.next s)

/-- BUF and the other host accesses to its buffer: none while BUSY (R320), none outside the attached buffer. -/
def hostBuffer (ok : Bool) (t s : State) : Host.Outcome State Fault Refusal :=
  if s.busy then .refused .bufferTouchedWhileBusy
  else if ok then .next t
  else .refused .outsideAttachedBuffer

/-- WAIT (R106): one read of STATUS; while BUSY reads 1 the engine has a turn and the host polls again (log 22). -/
def pollStatus (s : State) : State :=
  let t : State := { s with portOut := portRead s 0x09 }
  if s.busy then { t with turns := .engine :: .host .wait :: s.turns } else t

/-- What a host action does (R26, R27, R43 to R45, R71, R90, R105, R106, R310, R320). -/
def hostMove (a : HostAction) (s : State) : Move :=
  match a with
  | .write reg data =>
    if reg = cmdReg then .run (decodeCommand (commandWord data)) s else .done (.next (portWrite reg data s))
  | .read reg => .done (.next { s with portOut := portRead s reg })
  | .buf offset bytes =>
    .done (hostBuffer (decide (offset + bytes.length ≤ s.mem.size)) { s with mem := s.mem.writeBytes offset bytes } s)
  | .bufRead offset => .done (hostBuffer (decide (offset < s.mem.size)) s s)
  | .attach bytes => .done (hostBuffer true { s with mem := Memory.ofBytes bytes } s)
  | .src bytes => .done (.next { s with source := s.source ++ bytes })
  | .srcDrop count =>
    .done (if s.busy then .refused .sourceTakenWhileBusy else .next { s with source := s.source.drop count })
  | .sinkRead => .done (.next s)
  | .sinkClear => .done (.next { s with sink := [] })
  | .wait => .done (.next (pollStatus s))
  | .reset => .run .reset s

/-- The next move of the machine: the first turn is taken off the list and made. -/
def nextMove (s : State) : Move :=
  match s.turns with
  | [] => engineMove s
  | .engine :: rest => engineMove { s with turns := rest }
  | .host a :: rest => hostMove a { s with turns := rest }

/-- The state in which the next turn is the host's write of a table word to CMD (R105, R106). -/
def placeCommand (s : State) (nbits w : Nat) : State :=
  { s with turns := .host (.write cmdReg (tableData nbits w)) :: s.turns }

/-- The pseudo-instruction GEOM w, h, c, d (R106). -/
def scriptGeom (w h c d : Word32) : List Turn :=
  [.host (.write 0x00 (w.setWidth 64)), .host (.write 0x01 (h.setWidth 64)),
   .host (.write 0x02 (c.setWidth 64)), .host (.write 0x03 (d.setWidth 64))]

/-- The pseudo-instructions NOP, CAPACITY, VALIDATE, ENCODE, DECODE: one write of the word to CMD (R106). -/
def scriptCommand (i : Instr) : List Turn :=
  match encode i with
  | some w => [.host (.write cmdReg (w.setWidth 64))]
  | none => []

end Sys2Proof.Machine
end

