-- ==== Sys2Proof/Machine/Step.lean ====
section
/-! DEFINITION. One step of the machine: the next turn's move. -/

namespace Sys2Proof.Machine

/-- One step: an engine step, or one host action (00_scope.md R5, 30_encoding.md R90). -/
def step (s : State) : Host.Outcome State Fault Refusal :=
  match nextMove s with
  | .run i t => exec i t
  | .done o => o

/-- The table word placed where the next step takes it: as the host's next write to CMD (log 2). -/
def State.withFetchWord (s : State) (nbits w : Nat) : State := placeCommand s nbits w

end Sys2Proof.Machine
end

