-- ==== Sys2Proof/Safety.lean ====
section
/-! DEFINITION. The terms claims use: the legal geometry in the spec's own numbers, the host duties, the invariant of
reachable states (10_state.md R47), the framed stream (30_encoding.md R99, R100), and the scanner's transition table
(43_marker_scan.md R237). Nothing here is part of what the machine does. -/

namespace Sys2Proof.Machine

/-- R131 in numbers: CHANNELS in 1 to 4, DEPTH 8 or 16, W * H * C * (D / 8) at most MAX_BUF_BYTES, exact. -/
abbrev GeometryLegal (p : Params) (s : State) : Prop :=
  (1 ≤ s.channels.toNat ∧ s.channels.toNat ≤ 4) ∧ (s.depth.toNat = 8 ∨ s.depth.toNat = 16) ∧
    s.width.toNat * s.height.toNat * s.channels.toNat * (s.depth.toNat / 8) ≤ p.maxBufBytes.toNat

/-- The CHECK step is enabled (R134). -/
abbrev CheckEnabled (s : State) : Prop := s.busy = true ∧ s.stage = .check

/-- The ENCODE loop step is enabled but for a hold (R186). -/
abbrev EncodeEnabled (s : State) : Prop := s.busy = true ∧ s.stage = .run ∧ s.op = .encode

/-- The DECODE loop step is enabled (R222). -/
abbrev DecodeEnabled (s : State) : Prop := s.busy = true ∧ s.stage = .run ∧ s.op = .decode

/-- The host duty of R321 as far as the engine can notice: the attached buffer has the L bytes of the geometry. -/
abbrev BufferAttached (s : State) : Prop := bufferLength s ≤ s.mem.size

/-- The first turn is a host action that R320, I9 or I10 gives the host no move for. -/
def hostOversteps (s : State) : Bool :=
  match s.turns with
  | .host (.buf offset bytes) :: _ => s.busy || decide (s.mem.size < offset + bytes.length)
  | .host (.bufRead offset) :: _ => s.busy || decide (s.mem.size ≤ offset)
  | .host (.attach _) :: _ => s.busy
  | .host (.srcDrop _) :: _ => s.busy
  | _ => false

/-- How many bytes the scanner holds back (R229). -/
def heldCount : ScanState → Nat
  | .seekStart _ => 0
  | .seekEnd n => n.val
  | .readCksum _ => 0

/-- The scanner is in SEEK_START. -/
def seeksStart : ScanState → Bool
  | .seekStart _ => true
  | .seekEnd _ => false
  | .readCksum _ => false

/-- What holds during the RUN stage of an ENCODE (R47, R136, R185). -/
structure EncodeInv (s : State) : Prop where
  /-- The capacity test has passed. -/
  fits : framedBytes s ≤ capacityBytes s
  /-- FR_IDX ≤ M. -/
  index : s.frIdx.toNat ≤ framedBytes s
  /-- 8 * FR_IDX - FR_BITS = CURSOR. -/
  bits : s.cursor.toNat + s.frBits.val = 8 * s.frIdx.toNat
  /-- COUNT counts the pulls. -/
  pulls : s.count = s.frIdx

/-- What holds during the RUN stage of a DECODE (R47, R234, R38). -/
structure DecodeInv (s : State) : Prop where
  /-- 8 * (bytes fed) + AS_CNT = CURSOR. -/
  assembled : s.asCnt.toNat = s.cursor.toNat % 8
  /-- At most one byte is emitted or held back for each byte fed. -/
  emitted : s.count.toNat + heldCount s.scan ≤ s.cursor.toNat / 8
  /-- Nothing is emitted while PHASE = SEEK_START. -/
  silent : seeksStart s.scan = true → s.count = 0 ∧ s.crcAcc = s.params.crcInit

/-- What holds while BUSY with STAGE = RUN (R47, R134). -/
structure RunInv (s : State) : Prop where
  geometry : geometryOk s.params s = true
  command : s.op = .encode ∨ s.op = .decode
  cursor : s.cursor.toNat ≤ sampleCount s
  capacity : s.capacity.toNat = capacityBytes s
  encoding : s.op = .encode → EncodeInv s
  decoding : s.op = .decode → DecodeInv s

/-- What holds while BUSY with STAGE = CHECK: the working registers as acceptance leaves them (R130, R312). -/
structure FreshInv (s : State) : Prop where
  capacity : s.capacity = 0
  cksum : s.cksum = 0
  stored : s.stored = 0
  count : s.count = 0
  cursor : s.cursor = 0
  crcAcc : s.crcAcc = s.params.crcInit
  frIdx : s.frIdx = 0
  frShift : s.frShift = 0
  frBits : s.frBits = 0
  asByte : s.asByte = 0
  asCnt : s.asCnt = 0
  scan : s.scan = .seekStart 0

/-- The invariant of reachable states (R47; log 20): the buffer is in its canonical form, an idle block is in STAGE
CHECK, a busy one runs a command, FR_BITS > 0 gives FR_IDX ≥ 1, and the two stages' own conditions. -/
structure State.Inv (s : State) : Prop where
  memory : s.mem.wf = true
  idle : s.busy = false → s.stage = .check
  command : s.busy = true → s.op ≠ .none
  pulled : 0 < s.frBits.val → 1 ≤ s.frIdx.toNat
  fresh : s.busy = true → s.stage = .check → FreshInv s
  run : s.busy = true → s.stage = .run → RunInv s

/-- The four bytes of a word, most significant first (R99). -/
def bigEndian32 (w : Word32) : List Byte := (List.range 4).map (checksumByte w)

/-- The framed stream F of a payload (R99). -/
def framedStream (p : Params) (payload : List Byte) : List Byte :=
  [0x0F, 0x1F, 0x2F, 0xFF] ++ payload ++ [0x0E, 0x1E, 0x2E, 0xEE] ++ bigEndian32 (crc32 p payload)

/-- Bit j of the framed stream, most significant first in each byte (R100). -/
def framedBit (frame : List Byte) (j : Nat) : BitVec 1 :=
  ((frame.getD (j / 8) 0) >>> (7 - j % 8)).setWidth 1

/-- R157's table: the framed byte that index FR_IDX gives, with CRC_ACC and the source after the pull. -/
def PullsByte (p : Params) (s : State) (b : Byte) (crc : Word32) (source : List Byte) : Prop :=
  (s.frIdx.toNat < 4 ∧ b = [0x0F, 0x1F, 0x2F, 0xFF].getD s.frIdx.toNat 0 ∧ crc = s.crcAcc ∧ source = s.source) ∨
  (4 ≤ s.frIdx.toNat ∧ s.frIdx.toNat < s.payloadLen.toNat + 4 ∧ s.source = b :: source ∧
    crc = crcUpdate p s.crcAcc b) ∨
  (s.payloadLen.toNat + 4 ≤ s.frIdx.toNat ∧ s.frIdx.toNat < s.payloadLen.toNat + 8 ∧
    b = [0x0E, 0x1E, 0x2E, 0xEE].getD (s.frIdx.toNat - s.payloadLen.toNat - 4) 0 ∧ crc = s.crcAcc ∧ source = s.source) ∨
  (s.payloadLen.toNat + 8 ≤ s.frIdx.toNat ∧ s.frIdx.toNat < s.payloadLen.toNat + 12 ∧
    b.toNat = (s.crcAcc ^^^ p.crcXorout).toNat / 2 ^ (24 - 8 * (s.frIdx.toNat - s.payloadLen.toNat - 8)) % 256 ∧
    crc = s.crcAcc ∧ source = s.source)

/-- Where sample k's byte stands, in R63's numbers, and that the buffer holds it with this value. -/
def SampleHolds (s : State) (k a : Nat) (v : Byte) : Prop :=
  k < sampleCount s ∧ ((s.depth.toNat = 8 ∧ a = k) ∨ (s.depth.toNat = 16 ∧ a = 2 * k + 1)) ∧ s.mem.read a = some v

/-- The buffer `t` is the buffer `s` with this one byte replaced: the offset reads the byte, every other offset reads as
before, and the length is the same. -/
def OneByteWritten (s t : Memory) (a : Nat) (v : Byte) : Prop :=
  t.size = s.size ∧ t.read a = some v ∧ ∀ b, b ≠ a → t.read b = s.read b

/-- R243's simpler sufficient condition on a payload: it holds no full end marker and does not end with a proper prefix
of it. -/
def Recoverable (payload : List Byte) : Prop :=
  ¬ [0x0E, 0x1E, 0x2E, 0xEE] <:+: payload ∧ ¬ [0x0E] <:+ payload ∧ ¬ [0x0E, 0x1E] <:+ payload ∧
    ¬ [0x0E, 0x1E, 0x2E] <:+ payload

/-- The bytes that `k` runs of FRAMER_PULL give, and the state after them; none if one of them gives no byte. -/
def pullBytes : Nat → State → Option (List Byte × State)
  | 0, s => some ([], s)
  | k + 1, s =>
    match exec .framerPull s with
    | .next t =>
      match t.primOut with
      | .byte b => (pullBytes k t).map fun r => (b :: r.1, r.2)
      | _ => none
    | .fault _ => none
    | .refused _ => none

/-- SCAN_BYTE run on each byte of a stream (R225). -/
def scanStream : List Byte → State → Host.Outcome State Fault Refusal
  | [], s => .next s
  | c :: rest, s =>
    match exec (.scanByte c) s with
    | .next t => scanStream rest t
    | .fault f => .fault f
    | .refused r => .refused r

/-- The row of R237's table that SCAN and c select; none in RC(4), which takes no byte. -/
def scanArm : ScanState → Byte → Option Instr
  | .seekStart n, c =>
    if c.toNat = [0x0F, 0x1F, 0x2F, 0xFF].getD n.val 0 then
      (if n.val < 3 then some (.ssMatch c) else some (.ssMatchLast c))
    else some (.ssMismatch c)
  | .seekEnd n, c =>
    if c.toNat = [0x0E, 0x1E, 0x2E, 0xEE].getD n.val 0 then
      (if n.val < 3 then some (.seMatch c) else some (.seMatchLast c))
    else some (.seMismatch c)
  | .readCksum n, c => if n.val < 4 then some (.rcByte c) else none

end Sys2Proof.Machine
end

