-- ==== Sys2Proof/Certificates/Slice0/Obligations.lean ====
section
/-! DEFINITION. The statements for the provers. Each docstring cites the rules of spec/ it formalises; a statement that
rests on the model's own choice names the log entry. -/

open Sys2Proof Sys2Proof.Machine

/-! ### Encodings (30_encoding.md) -/

/-- Decode and encode agree (R91, R92): decoding the command word of a well-formed instruction gives it back, with every
operand at every value. -/
def Obligations.DecodeOfEncodeIsIdentity : Prop :=
  ∀ (i : Instr) (w : Word32), i.wellFormed = true → encode i = some w → decodeCommand w = i

/-- Encode and decode agree: every 32-bit word decodes to a well-formed instruction whose word it is. -/
def Obligations.EncodeOfDecodeIsIdentity : Prop :=
  ∀ w : Word32, (decodeCommand w).wellFormed = true ∧ encode (decodeCommand w) = some w

/-- R93: a command word is legal if and only if bits 31:4 are 0 and bits 3:0 are at most 4 (so the five commands are all
there are); an illegal word is refused with ILLEGAL_COMMAND when the block is idle and ignored when it is busy. -/
def Obligations.LegalWordsAreTheFiveCommands : Prop :=
  ∀ w : Word32, (isLegalCommand w = true ↔ w.toNat / 16 = 0 ∧ w.toNat % 16 ≤ 4) ∧
    (isLegalCommand w = true ↔ decodeCommand w ∈ [Instr.nop, .capacity, .validate, .encode, .decode]) ∧
    (isLegalCommand w = false → ∀ s : State,
      (s.busy = false → exec (decodeCommand w) s = .next { s with done := true, result := .illegalCommand }) ∧
      (s.busy = true → exec (decodeCommand w) s = .next s))

/-- R92's table, word by word: a few words written out from it decode to their rows. -/
def Obligations.TableWordsDecodeToTheirRows : Prop :=
  decodeCommand 0x00000000 = .nop ∧ decodeCommand 0x00000001 = .capacity ∧ decodeCommand 0x00000002 = .validate ∧
    decodeCommand 0x00000003 = .encode ∧ decodeCommand 0x00000004 = .decode ∧ decodeCommand 0x00000005 = .reserved5 ∧
    decodeCommand 0x00000007 = .reserved67 1 ∧ decodeCommand 0x0000000F = .reserved8F 7 ∧
    decodeCommand 0x00000010 = .reservedHigh 1 0

/-! ### The step -/

/-- A host write to CMD (register 0x08) runs the instruction that DATA[31:0] decodes to (R27, R91), on the state without
that turn; and a table word placed by withFetchWord is run by the very next step. -/
def Obligations.StepRunsDecodedCommand : Prop :=
  (∀ (s : State) (data : Word64) (rest : List Turn), s.turns = .host (.write 0x08 data) :: rest →
    step s = exec (decodeCommand (BitVec.ofNat 32 (data.toNat % 2 ^ 32))) { s with turns := rest }) ∧
  (∀ (s : State) (nbits w : Nat), nbits ≤ 64 →
    ∃ i, decodeTableWord nbits w = some i ∧ step (s.withFetchWord nbits w) = exec i s)

/-- The engine's turn runs the step STATUS selects: CHECK at STAGE = 0, the loop step of OP at STAGE = 1 (R134, R186,
R222); the reset input runs RESET (R310). An empty list of turns is the engine's turn (log 1). -/
def Obligations.StepRunsSelectedEngineStep : Prop :=
  (∀ (s : State) (rest : List Turn), (s.turns = .engine :: rest ∨ (s.turns = [] ∧ rest = [])) →
    (CheckEnabled s → step s = exec .check { s with turns := rest }) ∧
    (EncodeEnabled s → step s = exec .encodeStep { s with turns := rest }) ∧
    (DecodeEnabled s → step s = exec .decodeStep { s with turns := rest }) ∧
    (s.busy = false → step s = .next { s with turns := rest })) ∧
  ∀ (s : State) (rest : List Turn), s.turns = .host .reset :: rest → step s = exec .reset { s with turns := rest }

/-! ### Reset (70_reset_and_hazards.md) -/

/-- R48: after reset every register reads 0, and the block is idle: it takes no step of its own. -/
def Obligations.ResetStateReadsZeroAndIsIdle : Prop :=
  (∀ reg : BitVec 8, portRead State.reset reg = 0) ∧ State.reset.busy = false ∧ step State.reset = .next State.reset

/-- R310: the reset input, idle or BUSY, makes every register read 0 (so a running command is abandoned without
completing, DONE and RESULT are 0 and the block is idle), leaves the buffer, the source and the sink, and the engine then
has no step of its own. -/
def Obligations.ResetInputClearsEveryRegister : Prop :=
  ∀ (s : State) (rest : List Turn), s.turns = .host .reset :: rest →
    ∃ t, step s = .next t ∧ exec .reset { s with turns := rest } = .next t ∧ (∀ reg : BitVec 8, portRead t reg = 0) ∧
      t.busy = false ∧ t.done = false ∧ t.mem = s.mem ∧ t.source = s.source ∧ t.sink = s.sink ∧ t.turns = rest ∧
      step { t with turns := [] } = .next { t with turns := [] }

/-! ### The register port (10_state.md) -/

/-- R26: a configuration register takes the low bits of the data when idle and keeps its value when BUSY, and nothing
else changes; so the geometry and the payload length are constant for the whole of a command: no step taken while BUSY,
but for the reset input, changes one. -/
def Obligations.ConfigurationWriteWhenIdleOnly : Prop :=
  (∀ (s : State) (reg : BitVec 8) (data : Word64) (rest : List Turn),
    s.turns = .host (.write reg data) :: rest → reg.toNat ≤ 4 →
    (s.busy = true → step s = .next { s with turns := rest }) ∧
    (s.busy = false →
      (reg = 0x00 → step s = .next { s with turns := rest, width := data.setWidth 32 }) ∧
      (reg = 0x01 → step s = .next { s with turns := rest, height := data.setWidth 32 }) ∧
      (reg = 0x02 → step s = .next { s with turns := rest, channels := data.setWidth 32 }) ∧
      (reg = 0x03 → step s = .next { s with turns := rest, depth := data.setWidth 32 }) ∧
      (reg = 0x04 → step s = .next { s with turns := rest, payloadLen := data }))) ∧
  ∀ s t : State, s.busy = true → (∀ rest, s.turns ≠ .host .reset :: rest) → step s = .next t →
    t.width = s.width ∧ t.height = s.height ∧ t.channels = s.channels ∧ t.depth = s.depth ∧ t.payloadLen = s.payloadLen

/-- R43: a read of an unassigned register number returns 0, a write to one is ignored. -/
def Obligations.UnassignedRegistersReadZeroIgnoreWrites : Prop :=
  ∀ (s : State) (reg : BitVec 8) (rest : List Turn),
    ((5 ≤ reg.toNat ∧ reg.toNat ≤ 7) ∨ (0x0B ≤ reg.toNat ∧ reg.toNat ≤ 0x0F) ∨ 0x19 ≤ reg.toNat) →
    (s.turns = .host (.read reg) :: rest → step s = .next { s with turns := rest, portOut := 0 }) ∧
    (∀ data, s.turns = .host (.write reg data) :: rest → step s = .next { s with turns := rest })

/-- R44: a write to a read-only register is ignored whatever BUSY is. R44, R90: a read of a register, BUSY or not, gives
its value zero-extended and changes nothing else: the configuration registers 0x00 to 0x04 and the read-only ones; CMD
reads 0 (R27); STATUS and SCAN read the words of StatusWordLayout and ScanWordIsReachable. The value of a read stands in
the model's own field portOut (log 17). -/
def Obligations.ReadOnlyRegistersIgnoreWrites : Prop :=
  ∀ (s : State) (reg : BitVec 8) (rest : List Turn),
    (reg = 0x09 ∨ reg = 0x0A ∨ (0x10 ≤ reg.toNat ∧ reg.toNat ≤ 0x18) →
      ∀ data, s.turns = .host (.write reg data) :: rest → step s = .next { s with turns := rest }) ∧
    (s.turns = .host (.read reg) :: rest →
      ∃ v : Word64, step s = .next { s with turns := rest, portOut := v } ∧ v = portRead s reg ∧
        (reg = 0x00 → v.toNat = s.width.toNat) ∧ (reg = 0x01 → v.toNat = s.height.toNat) ∧
        (reg = 0x02 → v.toNat = s.channels.toNat) ∧ (reg = 0x03 → v.toNat = s.depth.toNat) ∧
        (reg = 0x04 → v = s.payloadLen) ∧ (reg = 0x08 → v = 0) ∧
        (reg = 0x09 → v = portRead s 0x09) ∧ (reg = 0x0A → v = portRead s 0x0A) ∧
        (reg = 0x10 → v = s.capacity) ∧ (reg = 0x11 → v.toNat = s.cksum.toNat) ∧
        (reg = 0x12 → v.toNat = s.stored.toNat) ∧ (reg = 0x13 → v = s.count) ∧ (reg = 0x14 → v = s.cursor) ∧
        (reg = 0x15 → v.toNat = s.crcAcc.toNat) ∧ (reg = 0x16 → v = s.frIdx) ∧
        (reg = 0x17 → v.toNat = s.frBits.val * 256 + s.frShift.toNat) ∧
        (reg = 0x18 → v.toNat = s.asCnt.toNat * 256 + s.asByte.toNat))

/-- R28: the fields of STATUS stand at their bits and every other bit reads 0. -/
def Obligations.StatusWordLayout : Prop :=
  ∀ s : State, (portRead s 0x09).toNat =
    stageBit s.stage * 2 ^ 11 + opcodeBits s.op * 2 ^ 8 + resultBits s.result * 2 ^ 4 + s.done.toNat * 2 + s.busy.toNat ∧
    stageBit s.stage ≤ 1 ∧ opcodeBits s.op ≤ 4 ∧ resultBits s.result ≤ 6

/-- R98: the SCAN word is PROGRESS<<4 | PHASE and one of the thirteen reachable words. -/
def Obligations.ScanWordIsReachable : Prop :=
  ∀ s : State, (portRead s 0x0A).toNat = scanProgress s.scan * 16 + scanPhase s.scan ∧
    (portRead s 0x0A).toNat ∈
      [0x00, 0x10, 0x20, 0x30, 0x01, 0x11, 0x21, 0x31, 0x02, 0x12, 0x22, 0x32, 0x42]

/-- The host's moves on what it owns (R71, R105, R315): SRC appends to the source at any time; when idle, attaching gives
a buffer of exactly the bytes, BUF replaces the bytes it names and no other; the host empties the sink. No register
changes (logs 19, 3). -/
def Obligations.HostMovesBufferAndStreams : Prop :=
  ∀ (s : State) (rest : List Turn) (bytes : List Byte),
    (s.turns = .host (.src bytes) :: rest → step s = .next { s with turns := rest, source := s.source ++ bytes }) ∧
    (s.turns = .host .sinkClear :: rest → step s = .next { s with turns := rest, sink := [] }) ∧
    (s.turns = .host (.attach bytes) :: rest → s.busy = false →
      ∃ m : Memory, step s = .next { s with turns := rest, mem := m } ∧ m.size = bytes.length ∧
        ∀ k, (h : k < bytes.length) → m.read k = some bytes[k]) ∧
    (∀ offset, s.turns = .host (.buf offset bytes) :: rest → s.busy = false → s.mem.wf = true →
      offset + bytes.length ≤ s.mem.size →
      ∃ m : Memory, step s = .next { s with turns := rest, mem := m } ∧ m.size = s.mem.size ∧
        (∀ k, (h : k < bytes.length) → m.read (offset + k) = some bytes[k]) ∧
        ∀ a, a < offset ∨ offset + bytes.length ≤ a → m.read a = s.mem.read a)

/-! ### Accepting a command (40_command_and_capacity.md) -/

/-- R132: NOP, the word 0x00000000, changes nothing, idle or BUSY. -/
def Obligations.NopChangesNothing : Prop :=
  encode .nop = some 0x00000000 ∧ ∀ s : State, exec .nop s = .next s

/-- R130: an idle block accepts CAPACITY, VALIDATE, ENCODE or DECODE: BUSY set, DONE cleared, OP written, STAGE CHECK,
every working register cleared; RESULT, the configuration, the buffer and the streams keep their values. -/
def Obligations.CommandWordStartsCommand : Prop :=
  ∀ (s : State) (i : Instr) (o : Opcode),
    (i, o) ∈ [(Instr.capacity, Opcode.capacity), (.validate, .validate), (.encode, .encode), (.decode, .decode)] →
    s.busy = false →
    exec i s = .next
      { s with
        busy := true, done := false, op := o, stage := .check
        capacity := 0, cksum := 0, stored := 0, count := 0, cursor := 0, crcAcc := s.params.crcInit
        frIdx := 0, frShift := 0, frBits := 0, asByte := 0, asCnt := 0, scan := .seekStart 0 }

/-- R133: an illegal command word (RESERVED_5, RESERVED_6_7, RESERVED_8_F, RESERVED_HIGH: bits 31:4 not 0 or bits 3:0 in
5 to 15) written while idle sets DONE and RESULT 6; BUSY, OP, STAGE and the working registers keep their values. Written
while BUSY it is ignored. -/
def Obligations.IllegalWordSetsResultOnly : Prop :=
  (∀ w : Word32, w.toNat / 16 ≠ 0 ∨ 5 ≤ w.toNat % 16 →
    decodeCommand w = .reserved5 ∨ (∃ low, decodeCommand w = .reserved67 low) ∨
      (∃ low, decodeCommand w = .reserved8F low) ∨
      (∃ rsvd opcode, rsvd ≠ 0 ∧ decodeCommand w = .reservedHigh rsvd opcode)) ∧
  ∀ (s : State) (i : Instr),
    (i = .reserved5 ∨ (∃ low, i = .reserved67 low) ∨ (∃ low, i = .reserved8F low) ∨
      (∃ rsvd opcode, rsvd ≠ 0 ∧ i = .reservedHigh rsvd opcode)) →
    (s.busy = false → exec i s = .next { s with done := true, result := .illegalCommand }) ∧
    (s.busy = true → exec i s = .next s)

/-- R130, R325: while BUSY a CMD write, legal or not, is ignored: no state changes. -/
def Obligations.CommandIgnoredWhileBusy : Prop :=
  ∀ (s : State) (i : Instr), s.busy = true → ((encode i).isSome = true ∨ ∃ data, i = .accept data) →
    exec i s = .next s

/-- R130: ACCEPT completes in every state, as the command that DATA[31:0] decodes to. -/
def Obligations.AcceptRunsDecodedCommand : Prop :=
  ∀ (s : State) (data : Word64), ∃ t, exec (.accept data) s = .next t ∧
    exec (decodeCommand (BitVec.ofNat 32 (data.toNat % 2 ^ 32))) s = .next t

/-- R130, line by line: what ACCEPT does with the word w = DATA[31:0] (DATA[63:32] is ignored): nothing while BUSY and
for w = 0; DONE and RESULT 6 for an illegal word; else a command starts with OP = w. Its example: from reset, word 1
leaves STATUS = 0x101. -/
def Obligations.AcceptanceIsR130 : Prop :=
  (∀ (s : State) (data : Word64) (w : Nat), w = data.toNat % 2 ^ 32 →
    (s.busy = true → exec (.accept data) s = .next s) ∧
    (s.busy = false →
      (w = 0 → exec (.accept data) s = .next s) ∧
      (w / 16 ≠ 0 ∨ 4 < w % 16 →
        exec (.accept data) s = .next { s with done := true, result := .illegalCommand }) ∧
      (w / 16 = 0 → 1 ≤ w → w ≤ 4 →
        ∃ o : Opcode, opcodeBits o = w % 8 ∧ exec (.accept data) s = .next
          { s with
            busy := true, done := false, op := o, stage := .check
            capacity := 0, cksum := 0, stored := 0, count := 0, cursor := 0, crcAcc := s.params.crcInit
            frIdx := 0, frShift := 0, frBits := 0, asByte := 0, asCnt := 0, scan := .seekStart 0 }))) ∧
  ∃ t, exec (.accept 1) State.reset = .next t ∧ (portRead t 0x09).toNat = 0x00000101

/-! ### The CHECK stage and the capacity model (40_command_and_capacity.md) -/

/-- R131: GeomOK in the spec's own numbers. -/
def Obligations.GeometryCheckIsR131 : Prop :=
  ∀ (p : Params) (s : State), geometryOk p s = true ↔ GeometryLegal p s

/-- R131: GEOM_OK run on its own changes nothing but the model's own primOut, which holds the truth value (log 9). -/
def Obligations.GeomOkReportsCheck : Prop :=
  ∀ s : State, exec .geomOk s = .next { s with primOut := .flag (decide (GeometryLegal s.params s)) }

/-- R135: CAPACITY, the word 0x00000001, and its CHECK step: UNSUPPORTED_FORMAT, or CAPACITY <- floor(W * H * C / 8), exact, and OK. -/
def Obligations.CheckOfCapacity : Prop :=
  encode .capacity = some 0x00000001 ∧ ∀ s : State, CheckEnabled s → s.op = .capacity →
    (¬ GeometryLegal s.params s →
      exec .check s = .next { s with busy := false, done := true, stage := .check, result := .unsupportedFormat }) ∧
    (GeometryLegal s.params s →
      ∃ cap : Word64, cap.toNat = s.width.toNat * s.height.toNat * s.channels.toNat / 8 ∧
        exec .check s = .next { s with capacity := cap, busy := false, done := true, stage := .check, result := .ok })

/-- R136: the CHECK step of VALIDATE: N + 12 > CAP, compared exactly, gives CAPACITY_EXCEEDED, otherwise OK. -/
def Obligations.CheckOfValidate : Prop :=
  ∀ s : State, CheckEnabled s → s.op = .validate →
    (¬ GeometryLegal s.params s →
      exec .check s = .next { s with busy := false, done := true, stage := .check, result := .unsupportedFormat }) ∧
    (GeometryLegal s.params s →
      ∃ cap : Word64, cap.toNat = s.width.toNat * s.height.toNat * s.channels.toNat / 8 ∧
        (s.payloadLen.toNat + 12 > cap.toNat → exec .check s = .next
          { s with capacity := cap, busy := false, done := true, stage := .check, result := .capacityExceeded }) ∧
        (s.payloadLen.toNat + 12 ≤ cap.toNat → exec .check s = .next
          { s with capacity := cap, busy := false, done := true, stage := .check, result := .ok }))

/-- R134 with OP = 3, R138: the CHECK step of ENCODE: an ENCODE that fails the capacity test completes here with the
buffer and the source untouched; one that passes enters STAGE RUN. -/
def Obligations.CheckOfEncode : Prop :=
  ∀ s : State, CheckEnabled s → s.op = .encode →
    (¬ GeometryLegal s.params s →
      exec .check s = .next { s with busy := false, done := true, stage := .check, result := .unsupportedFormat }) ∧
    (GeometryLegal s.params s →
      ∃ cap : Word64, cap.toNat = s.width.toNat * s.height.toNat * s.channels.toNat / 8 ∧
        (s.payloadLen.toNat + 12 > cap.toNat → exec .check s = .next
          { s with capacity := cap, busy := false, done := true, stage := .check, result := .capacityExceeded }) ∧
        (s.payloadLen.toNat + 12 ≤ cap.toNat → exec .check s = .next { s with capacity := cap, stage := .run }))

/-- R221: the CHECK step of DECODE: no capacity test, PAYLOAD_LEN ignored. -/
def Obligations.CheckOfDecode : Prop :=
  ∀ s : State, CheckEnabled s → s.op = .decode →
    (¬ GeometryLegal s.params s →
      exec .check s = .next { s with busy := false, done := true, stage := .check, result := .unsupportedFormat }) ∧
    (GeometryLegal s.params s →
      ∃ cap : Word64, cap.toNat = s.width.toNat * s.height.toNat * s.channels.toNat / 8 ∧
        exec .check s = .next { s with capacity := cap, stage := .run })

/-! ### Checksum and framer (41_framer.md) -/

/-- R153: CRC_UPDATE is eight rounds on c ^ (b << 24), each doubling modulo 2^32 and adding the polynomial when bit 31
was 1; the value goes to the model's own primOut (log 9) and nothing else changes. -/
def Obligations.CrcUpdateIsEightRounds : Prop :=
  ∀ (s : State) (c : Word32) (b : Byte), ∃ r : Word32, exec (.crcUpdate c b) s = .next { s with primOut := .word r } ∧
    r.toNat = (fun v : Nat => if 2 ^ 31 ≤ v then (2 * v % 2 ^ 32) ^^^ s.params.crcPoly.toNat else 2 * v % 2 ^ 32)^[8]
      (c.toNat ^^^ (b.toNat * 2 ^ 24))

/-- R157: FRAMER_PULL gives the framed byte of FR_IDX and advances it; only a payload pull changes CRC_ACC and the
source. The byte goes to the model's own primOut (log 9). -/
def Obligations.FramerPullGivesFramedByte : Prop :=
  ∀ (s : State) (b : Byte) (crc : Word32) (source : List Byte), PullsByte s.params s b crc source →
    exec .framerPull s = .next { s with frIdx := s.frIdx + 1, crcAcc := crc, source := source, primOut := .byte b }

/-- R70, R186: on an empty source a payload pull holds, and so does the ENCODE loop step that needs it: the step does not
happen at all. At FR_IDX = M (and, in the model, beyond; log 11) the pull answers end-of-stream (R156). -/
def Obligations.EmptySourceHoldsAndPullEnds : Prop :=
  ∀ s : State,
    (4 ≤ s.frIdx.toNat → s.frIdx.toNat < s.payloadLen.toNat + 4 → s.source = [] →
      exec .framerPull s = .next s ∧
      (s.frBits.val = 0 → s.cursor.toNat ≠ sampleCount s → exec .encodeStep s = .next s)) ∧
    (s.payloadLen.toNat + 12 ≤ s.frIdx.toNat → exec .framerPull s = .next { s with primOut := .endOfStream })

/-- R99, R157, R158: M pulls from FR_IDX = 0 give the framed stream START, payload, END, checksum, take exactly the N
payload bytes from the source and leave CRC_ACC at the payload's running CRC. -/
def Obligations.FramerGivesFramedStream : Prop :=
  ∀ (s : State) (payload rest : List Byte), s.payloadLen.toNat = payload.length → payload.length + 12 < 2 ^ 64 →
    s.source = payload ++ rest → s.frIdx = 0 → s.crcAcc = s.params.crcInit →
    ∃ t, pullBytes (payload.length + 12) s = some (framedStream s.params payload, t) ∧
      t.source = rest ∧ t.crcAcc = crcFold s.params payload ∧ t.frIdx.toNat = payload.length + 12 ∧
      t.sink = s.sink ∧ t.mem = s.mem ∧ t.cursor = s.cursor ∧ t.count = s.count

/-! ### Sample-plane codec and ENCODE (42_sample_codec.md) -/

/-- R180, R181: SET_LSB replaces bit 0 and keeps bits 7:1; GET_LSB is bit 0 and undoes SET_LSB. The values go to the
model's own primOut (log 9) and nothing else changes. -/
def Obligations.LsbPrimitivesWriteAndReadBitZero : Prop :=
  ∀ (s : State) (v : Byte) (bit : BitVec 1),
    (∃ r : Byte, exec (.setLsb v bit) s = .next { s with primOut := .byte r } ∧
      r.toNat = v.toNat / 2 * 2 + bit.toNat ∧ exec (.getLsb r) s = .next { s with primOut := .bit bit }) ∧
    (∃ r : BitVec 1, exec (.getLsb v) s = .next { s with primOut := .bit r } ∧ r.toNat = v.toNat % 2)

/-- R184: EMBED_STEP(k, bit) replaces bit 0 of sample k's byte, at k for DEPTH 8 and 2k + 1 for DEPTH 16; no other byte
and no register changes. The buffer is in its canonical form and has the byte (R321). -/
def Obligations.EmbedStepWritesOneLsb : Prop :=
  ∀ (s : State) (k : Word64) (bit : BitVec 1) (a : Nat) (v : Byte), s.mem.wf = true → SampleHolds s k.toNat a v →
    ∃ m, exec (.embedStep k bit) s = .next { s with mem := m } ∧ OneByteWritten s.mem m a (setLsb v bit)

/-- Where EMBED_STEP stops: R63 gives no address for a DEPTH other than 8 or 16, and none for k beyond S - 1 (R73); a
buffer shorter than L breaks R321 (logs 5, 14). -/
def Obligations.EmbedStepStopsOutsideBuffer : Prop :=
  ∀ (s : State) (k : Word64) (bit : BitVec 1),
    (s.depth.toNat ≠ 8 → s.depth.toNat ≠ 16 → exec (.embedStep k bit) s = .fault .depthNotLegal) ∧
    (s.depth.toNat = 8 ∨ s.depth.toNat = 16 → sampleCount s ≤ k.toNat →
      exec (.embedStep k bit) s = .fault .addressOutsideBuffer) ∧
    (s.depth.toNat = 8 → k.toNat < sampleCount s → s.mem.size ≤ k.toNat →
      exec (.embedStep k bit) s = .fault .bufferShorterThanGeometry) ∧
    (s.depth.toNat = 16 → k.toNat < sampleCount s → s.mem.size ≤ 2 * k.toNat + 1 →
      exec (.embedStep k bit) s = .fault .bufferShorterThanGeometry)

/-- R186 with bits left: the loop step embeds FR_SHIFT[7] at sample CURSOR, shifts, and advances CURSOR; no framer pull,
no other register and no other byte changes. -/
def Obligations.EncodeStepEmbedsHeldBit : Prop :=
  ∀ (s : State) (a : Nat) (v : Byte), EncodeEnabled s → s.mem.wf = true → 0 < s.frBits.val →
    SampleHolds s s.cursor.toNat a v →
    ∃ (m : Memory) (bits : Fin 9), bits.val + 1 = s.frBits.val ∧
      exec .encodeStep s = .next
        { s with mem := m, frShift := s.frShift <<< 1, frBits := bits, cursor := s.cursor + 1 } ∧
      OneByteWritten s.mem m a (setLsb v (BitVec.ofNat 1 (s.frShift.toNat / 128)))

/-- R185, R186 with no bits left and a byte to pull (R157): the loop step pulls it, embeds its bit 7 at sample CURSOR,
keeps its other seven bits and counts it. -/
def Obligations.EncodeStepRefillsAndEmbeds : Prop :=
  ∀ (s : State) (b : Byte) (crc : Word32) (source : List Byte) (a : Nat) (v : Byte), EncodeEnabled s →
    s.mem.wf = true → s.frBits.val = 0 → PullsByte s.params s b crc source → SampleHolds s s.cursor.toNat a v →
    ∃ m : Memory, exec .encodeStep s = .next
        { s with
          mem := m, frShift := b <<< 1, frBits := 7, cursor := s.cursor + 1
          frIdx := s.frIdx + 1, crcAcc := crc, source := source, count := s.count + 1 } ∧
      OneByteWritten s.mem m a (setLsb v (BitVec.ofNat 1 (b.toNat / 128)))

/-- R187: ENCODE_COMPLETE writes CKSUM <- CRC_FINAL(CRC_ACC) and completes OK (R11): BUSY 0, DONE 1, STAGE 0, RESULT 0;
every other register, the buffer and the streams keep their values. -/
def Obligations.EncodeCompleteReportsChecksum : Prop :=
  ∀ s : State, exec .encodeComplete s = .next
    { s with cksum := s.crcAcc ^^^ s.params.crcXorout, busy := false, done := true, stage := .check, result := .ok }

/-- R186, R187, R189: the loop step is ENCODE_COMPLETE, which writes CKSUM <- CRC_FINAL(CRC_ACC) and completes OK, when
the framer is exhausted, and likewise when CURSOR = S. ENCODE_TRUNCATE is that second case of the enabled loop step: it
completes so in every state in which R189's loop step finds CURSOR = S before the framer is exhausted. Run alone where
STATUS does not select the loop step it does the same (the model's choice, log 24), and where CURSOR is not S or the
framer is exhausted it changes nothing (the model's reading, log 10). -/
def Obligations.EncodeStepCompletes : Prop :=
  ∀ s : State, ∃ t : State,
    t = { s with
      cksum := s.crcAcc ^^^ s.params.crcXorout, busy := false, done := true, stage := .check, result := .ok } ∧
    exec .encodeComplete s = .next t ∧
    (EncodeEnabled s → s.frBits.val = 0 ∧ s.frIdx.toNat = s.payloadLen.toNat + 12 → exec .encodeStep s = .next t) ∧
    (EncodeEnabled s → s.cursor.toNat = sampleCount s → exec .encodeStep s = .next t) ∧
    (EncodeEnabled s → s.cursor.toNat = sampleCount s →
      ¬ (s.frBits.val = 0 ∧ s.frIdx.toNat = s.payloadLen.toNat + 12) → exec .encodeTruncate s = .next t) ∧
    (¬ EncodeEnabled s → s.cursor.toNat = sampleCount s →
      ¬ (s.frBits.val = 0 ∧ s.frIdx.toNat = s.payloadLen.toNat + 12) → exec .encodeTruncate s = .next t) ∧
    (s.cursor.toNat ≠ sampleCount s ∨ (s.frBits.val = 0 ∧ s.frIdx.toNat = s.payloadLen.toNat + 12) →
      exec .encodeTruncate s = .next s)

/-- R188: the whole effect of an ENCODE that passes CHECK, in 1 + 8M + 1 engine steps: every bit of the framed stream in
its sample's least-significant bit, all other bytes unchanged, the N payload bytes taken from the source, and the
registers as the rule lists them. -/
def Obligations.EncodeEmbedsFramedStream : Prop :=
  ∀ (s : State) (payload rest : List Byte), s.turns = [] → s.busy = false → s.mem.wf = true →
    GeometryLegal s.params s → BufferAttached s → s.payloadLen.toNat = payload.length →
    payload.length + 12 ≤ capacityBytes s → s.source = payload ++ rest →
    ∃ u t, exec .encode s = .next u ∧ core.run (1 + 8 * (payload.length + 12) + 1) u = .next t ∧
      (∀ k, k < 8 * (payload.length + 12) → ∃ a v, SampleHolds s k a v ∧
        t.mem.read a = some (setLsb v (framedBit (framedStream s.params payload) k))) ∧
      (∀ b, (∀ k, k < 8 * (payload.length + 12) → sampleAddr s k ≠ some b) → t.mem.read b = s.mem.read b) ∧
      t.source = rest ∧ t.sink = s.sink ∧ t.cksum = crc32 s.params payload ∧ t.count.toNat = payload.length + 12 ∧
      t.cursor.toNat = 8 * (payload.length + 12) ∧ t.frIdx.toNat = payload.length + 12 ∧ t.frBits = 0 ∧ t.frShift = 0 ∧
      t.crcAcc = crcFold s.params payload ∧ t.capacity.toNat = capacityBytes s ∧ t.scan = .seekStart 0 ∧ t.asByte = 0 ∧
      t.asCnt = 0 ∧ t.stored = 0 ∧ t.result = .ok ∧ t.busy = false ∧ t.done = true ∧ t.op = .encode

/-! ### Marker scanner and DECODE (43_marker_scan.md) -/

/-- R222, line by line: at RC(4) or at CURSOR = S the loop step is DECODE_COMPLETE; else it shifts bit 0 of sample
CURSOR's byte into AS_BYTE and advances CURSOR, counts the bit while AS_CNT < 7, and at the eighth bit feeds the byte
just assembled to the scanner in the same step. -/
def Obligations.DecodeLoopStepIsR222 : Prop :=
  ∀ s : State, DecodeEnabled s →
    (s.scan = .readCksum 4 ∨ s.cursor.toNat = sampleCount s →
      ∃ t, exec .decodeComplete s = .next t ∧ exec .decodeStep s = .next t) ∧
    (∀ a v, s.scan ≠ .readCksum 4 → s.cursor.toNat ≠ sampleCount s → SampleHolds s s.cursor.toNat a v →
      ∃ c : Byte, c.toNat = (s.asByte.toNat * 2 + v.toNat % 2) % 256 ∧
        (s.asCnt.toNat < 7 →
          exec .decodeStep s = .next { s with asByte := c, cursor := s.cursor + 1, asCnt := s.asCnt + 1 }) ∧
        (s.asCnt.toNat = 7 → ∃ t,
          exec (.scanByte c) { s with asByte := c, cursor := s.cursor + 1, asCnt := 0 } = .next t ∧
          exec .decodeStep s = .next t))

/-- R25, R221: DECODE ignores PAYLOAD_LEN: its CHECK step and its loop step do the same whatever PAYLOAD_LEN holds. -/
def Obligations.DecodeIgnoresPayloadLength : Prop :=
  ∀ (s t : State) (n : Word64), s.op = .decode →
    (exec .check s = .next t → exec .check { s with payloadLen := n } = .next { t with payloadLen := n }) ∧
    (exec .decodeStep s = .next t → exec .decodeStep { s with payloadLen := n } = .next { t with payloadLen := n })

/-- R223, R238: DECODE_COMPLETE writes CKSUM and reports by SCAN: RC(4) OK or CHECKSUM_MISMATCH, SEEK_START
START_NOT_FOUND, SEEK_END and RC(n), n < 4, END_NOT_FOUND; SCAN and every other register keep their values. -/
def Obligations.DecodeCompleteClassifiesByScan : Prop :=
  ∀ s : State, ∃ code : ResultCode,
    exec .decodeComplete s = .next
      { s with cksum := s.crcAcc ^^^ s.params.crcXorout, busy := false, done := true, stage := .check, result := code } ∧
    (∀ n, s.scan = .seekStart n → code = .startNotFound) ∧
    (∀ n, s.scan = .seekEnd n → code = .endNotFound) ∧
    (∀ n, s.scan = .readCksum n → n.val < 4 → code = .endNotFound) ∧
    (s.scan = .readCksum 4 → s.crcAcc ^^^ s.params.crcXorout = s.stored → code = .ok) ∧
    (s.scan = .readCksum 4 → s.crcAcc ^^^ s.params.crcXorout ≠ s.stored → code = .checksumMismatch)

/-- R225: SCAN_BYTE is exactly the arm of R237's table that SCAN and c select; in RC(4), which takes no byte, nothing
changes (log 10). -/
def Obligations.ScanByteRunsSelectedArm : Prop :=
  ∀ (s : State) (c : Byte),
    (∀ i, scanArm s.scan c = some i → ∃ t, exec i s = .next t ∧ exec (.scanByte c) s = .next t) ∧
    (scanArm s.scan c = none → s.scan = .readCksum 4 ∧ exec (.scanByte c) s = .next s)

/-- R226 to R228: the SEEK_START arms change SCAN only: a match advances, the fourth match enters SE(0), a mismatch
returns to SS(0) whatever the byte is, START[0] included. -/
def Obligations.SeekStartArmsMoveScanOnly : Prop :=
  ∀ (s : State) (n : Fin 4) (c : Byte), s.scan = .seekStart n →
    (∀ m : Fin 4, m.val = n.val + 1 → c = [0x0F, 0x1F, 0x2F, 0xFF].getD n.val 0 →
      exec (.ssMatch c) s = .next { s with scan := .seekStart m }) ∧
    (n.val = 3 → c = 0xFF → exec (.ssMatchLast c) s = .next { s with scan := .seekEnd 0 }) ∧
    (c ≠ [0x0F, 0x1F, 0x2F, 0xFF].getD n.val 0 → exec (.ssMismatch c) s = .next { s with scan := .seekStart 0 })

/-- R229, R231: the SEEK_END matches change SCAN only: the matched byte is held back, and the fourth match enters RC(0)
with nothing emitted. -/
def Obligations.SeekEndMatchesMoveScanOnly : Prop :=
  ∀ (s : State) (n : Fin 4) (c : Byte), s.scan = .seekEnd n →
    (∀ m : Fin 4, m.val = n.val + 1 → c = [0x0E, 0x1E, 0x2E, 0xEE].getD n.val 0 →
      exec (.seMatch c) s = .next { s with scan := .seekEnd m }) ∧
    (n.val = 3 → c = 0xEE → exec (.seMatchLast c) s = .next { s with scan := .readCksum 0 })

/-- R232, R233: an SE(n) mismatch emits the n held-back bytes END[0..n-1] and then c, without comparing c with END[0],
folds them into CRC_ACC in that order, counts n + 1 bytes and returns to SE(0). -/
def Obligations.SeekEndMismatchEmitsHeldBytes : Prop :=
  ∀ (s : State) (n : Fin 4) (c : Byte) (out : List Byte), s.scan = .seekEnd n →
    c ≠ [0x0E, 0x1E, 0x2E, 0xEE].getD n.val 0 → out = [0x0E, 0x1E, 0x2E].take n.val ++ [c] →
    exec (.seMismatch c) s = .next
      { s with
        scan := .seekEnd 0, sink := s.sink ++ out, crcAcc := out.foldl (crcUpdate s.params) s.crcAcc
        count := s.count + BitVec.ofNat 64 (n.val + 1) }

/-- R236: RC(n), n < 4, shifts the byte into STORED and advances; nothing is emitted or folded into CRC_ACC. RC(4) is
terminal: the DECODE loop step completes there. -/
def Obligations.ChecksumByteShiftsIntoStored : Prop :=
  ∀ s : State,
    (∀ (n m : Fin 5) (c : Byte), s.scan = .readCksum n → m.val = n.val + 1 →
      ∃ w : Word32, w.toNat = (s.stored.toNat * 256 + c.toNat) % 2 ^ 32 ∧
        exec (.rcByte c) s = .next { s with stored := w, scan := .readCksum m }) ∧
    (s.scan = .readCksum 4 → DecodeEnabled s →
      ∃ t, exec .decodeStep s = .next t ∧ exec .decodeComplete s = .next t ∧ t.busy = false ∧ t.done = true)

/-- An engine step that STATUS does not select, and a scanner arm that SCAN and c do not select, change nothing (the
model's reading, log 10). -/
def Obligations.UnselectedStepsDoNothing : Prop :=
  (∀ s : State, (¬ CheckEnabled s → exec .check s = .next s) ∧ (¬ EncodeEnabled s → exec .encodeStep s = .next s) ∧
    (¬ DecodeEnabled s → exec .decodeStep s = .next s)) ∧
  ∀ (s : State) (c : Byte) (i : Instr),
    i ∈ [Instr.ssMatch c, .ssMatchLast c, .ssMismatch c, .seMatch c, .seMatchLast c, .seMismatch c, .rcByte c] →
    scanArm s.scan c ≠ some i → exec i s = .next s

/-- R230: EMIT folds the byte into CRC_ACC, appends it to the sink and counts it; nothing else changes. -/
def Obligations.EmitFoldsPushesCounts : Prop :=
  ∀ (s : State) (b : Byte), exec (.emit b) s = .next
    { s with crcAcc := crcUpdate s.params s.crcAcc b, sink := s.sink ++ [b], count := s.count + 1 }

/-- R229, R232: while PHASE = SEEK_END no byte is lost: what is in the sink followed by what is held back is what was
there before, followed by the byte fed; only the confirmed end marker is dropped. -/
def Obligations.ScannerConservesPayloadBytes : Prop :=
  ∀ (s : State) (n : Fin 4) (c : Byte), s.scan = .seekEnd n → ∃ t, exec (.scanByte c) s = .next t ∧
    ((∃ m, t.scan = .seekEnd m ∧
        t.sink ++ [0x0E, 0x1E, 0x2E].take m.val = s.sink ++ [0x0E, 0x1E, 0x2E].take n.val ++ [c]) ∨
      (n.val = 3 ∧ c = 0xEE ∧ t = { s with scan := .readCksum 0 }))

/-- R245, R243 on bytes: the scanner fed the framed stream of a recoverable payload from SS(0) ends in RC(4) with the
payload appended to the sink, CRC_ACC its running CRC and STORED its checksum. -/
def Obligations.ScannerRecoversFramedPayload : Prop :=
  ∀ (s : State) (payload : List Byte), s.scan = .seekStart 0 → s.crcAcc = s.params.crcInit → Recoverable payload →
    ∃ t, scanStream (framedStream s.params payload) s = .next t ∧ t.scan = .readCksum 4 ∧ t.sink = s.sink ++ payload ∧
      t.crcAcc = crcFold s.params payload ∧ t.stored = crc32 s.params payload ∧
      t.count = s.count + BitVec.ofNat 64 payload.length

/-- R224: a DECODE with a legal geometry and the buffer attached completes within 1 + S + 1 engine steps, and never
writes the buffer or pulls from the source (R81). -/
def Obligations.DecodeCompletesInTime : Prop :=
  ∀ s : State, s.turns = [] → s.busy = false → s.mem.wf = true → GeometryLegal s.params s → BufferAttached s →
    ∃ u k t, exec .decode s = .next u ∧ k ≤ 1 + sampleCount s + 1 ∧ core.run k u = .next t ∧ t.busy = false ∧
      t.done = true ∧ t.mem = s.mem ∧ t.source = s.source ∧
      t.result ∈ [ResultCode.ok, .startNotFound, .endNotFound, .checksumMismatch]

/-! ### The whole machine -/

/-- R47: the invariant holds at reset, whatever parameters the machine is built with (R6; State.reset has the
defaults). -/
def Obligations.ResetMeetsInvariant : Prop :=
  State.reset.Inv ∧ ∀ p : Params, (State.resetFor p).Inv ∧ (State.resetFor p).params = p

/-- R47: every step, of the engine or of the host, keeps the invariant; and no step changes the parameters of the
machine (R6, R20; they stand in the model's own field params, log 23). -/
def Obligations.StepKeepsInvariant : Prop :=
  (∀ s t : State, s.Inv → step s = .next t → t.Inv) ∧ ∀ s t : State, step s = .next t → t.params = s.params

/-- Every instruction keeps the buffer in its canonical form and its length (R60: the length never changes). -/
def Obligations.InstructionsKeepBufferForm : Prop :=
  ∀ (i : Instr) (s t : State), s.mem.wf = true → exec i s = .next t → t.mem.wf = true ∧ t.mem.size = s.mem.size

/-- R64, R65, R190: whatever instruction runs, each byte of the buffer changes at most in bit 0, and with DEPTH 16 a byte
at an even offset does not change at all. -/
def Obligations.OnlyLowBitsOfSamplesChange : Prop :=
  ∀ (i : Instr) (s t : State) (a : Nat), s.mem.wf = true → exec i s = .next t →
    (∀ v, s.mem.read a = some v → ∃ w, t.mem.read a = some w ∧ w.toNat / 2 = v.toNat / 2) ∧
    (s.depth.toNat = 16 → a % 2 = 0 → t.mem.read a = s.mem.read a)

/-- R71, R81, R82: the footprint of the engine steps: DECODE leaves the buffer and the source, ENCODE leaves the sink,
CHECK leaves all three. -/
def Obligations.EngineStepFootprints : Prop :=
  ∀ s t : State,
    (exec .decodeStep s = .next t → t.mem = s.mem ∧ t.source = s.source) ∧
    (exec .encodeStep s = .next t → t.sink = s.sink) ∧
    (exec .check s = .next t → t.mem = s.mem ∧ t.source = s.source ∧ t.sink = s.sink)

/-- R72: a byte pushed to the sink is never retracted by the block: every instruction only extends the sink. -/
def Obligations.SinkOnlyGrows : Prop :=
  ∀ (i : Instr) (s t : State), exec i s = .next t → s.sink <+: t.sink

/-- R73, R270: from a state of the invariant with the buffer attached (R321) no step faults: every error is a result
code. -/
def Obligations.InvariantStepNeverFaults : Prop :=
  ∀ s : State, s.Inv → BufferAttached s → ∀ f, step s ≠ .fault f

/-- R320: a step is refused exactly when the host makes a move that R320, I9 or I10 does not give it; no instruction is
ever refused. -/
def Obligations.RefusedOnlyWhenHostOversteps : Prop :=
  (∀ s : State, (∃ r, step s = .refused r) ↔ hostOversteps s = true) ∧
    ∀ (i : Instr) (s : State) (r : Refusal), exec i s ≠ .refused r

/-- R331: while BUSY an engine turn from a state of the invariant with the buffer attached always moves on: it completes
the command, enters STAGE RUN or advances CURSOR by 1, except during an ENCODE hold on an empty source, when nothing
changes. -/
def Obligations.BusyEngineMovesOnUnlessHeld : Prop :=
  ∀ s : State, s.Inv → BufferAttached s → s.busy = true → s.turns = [] →
    ∃ t, step s = .next t ∧
      ((t.busy = false ∧ t.done = true) ∨ (s.stage = .check ∧ t.stage = .run ∧ t.busy = true) ∨
        (t.busy = true ∧ t.cursor.toNat = s.cursor.toNat + 1) ∨
        (t = s ∧ s.op = .encode ∧ s.frBits = 0 ∧ s.source = [] ∧ 4 ≤ s.frIdx.toNat ∧
          s.frIdx.toNat < s.payloadLen.toNat + 4))
end

