-- ==== Sys2Proof/Laws/State.lean ====
section
/-! SUPPORT. One lemma per field per named update of State, each true by rfl, so that no later proof unfolds a record
update. -/

namespace Sys2Proof.Machine

/-! complete -/

@[simp] theorem complete_width (code : ResultCode) (s : State) : (complete code s).width = s.width := rfl
@[simp] theorem complete_height (code : ResultCode) (s : State) : (complete code s).height = s.height := rfl
@[simp] theorem complete_channels (code : ResultCode) (s : State) : (complete code s).channels = s.channels := rfl
@[simp] theorem complete_depth (code : ResultCode) (s : State) : (complete code s).depth = s.depth := rfl
@[simp] theorem complete_payloadLen (code : ResultCode) (s : State) : (complete code s).payloadLen = s.payloadLen := rfl
@[simp] theorem complete_busy (code : ResultCode) (s : State) : (complete code s).busy = false := rfl
@[simp] theorem complete_done (code : ResultCode) (s : State) : (complete code s).done = true := rfl
@[simp] theorem complete_result (code : ResultCode) (s : State) : (complete code s).result = code := rfl
@[simp] theorem complete_op (code : ResultCode) (s : State) : (complete code s).op = s.op := rfl
@[simp] theorem complete_stage (code : ResultCode) (s : State) : (complete code s).stage = .check := rfl
@[simp] theorem complete_scan (code : ResultCode) (s : State) : (complete code s).scan = s.scan := rfl
@[simp] theorem complete_capacity (code : ResultCode) (s : State) : (complete code s).capacity = s.capacity := rfl
@[simp] theorem complete_cksum (code : ResultCode) (s : State) : (complete code s).cksum = s.cksum := rfl
@[simp] theorem complete_stored (code : ResultCode) (s : State) : (complete code s).stored = s.stored := rfl
@[simp] theorem complete_count (code : ResultCode) (s : State) : (complete code s).count = s.count := rfl
@[simp] theorem complete_cursor (code : ResultCode) (s : State) : (complete code s).cursor = s.cursor := rfl
@[simp] theorem complete_crcAcc (code : ResultCode) (s : State) : (complete code s).crcAcc = s.crcAcc := rfl
@[simp] theorem complete_frIdx (code : ResultCode) (s : State) : (complete code s).frIdx = s.frIdx := rfl
@[simp] theorem complete_frShift (code : ResultCode) (s : State) : (complete code s).frShift = s.frShift := rfl
@[simp] theorem complete_frBits (code : ResultCode) (s : State) : (complete code s).frBits = s.frBits := rfl
@[simp] theorem complete_asByte (code : ResultCode) (s : State) : (complete code s).asByte = s.asByte := rfl
@[simp] theorem complete_asCnt (code : ResultCode) (s : State) : (complete code s).asCnt = s.asCnt := rfl
@[simp] theorem complete_mem (code : ResultCode) (s : State) : (complete code s).mem = s.mem := rfl
@[simp] theorem complete_source (code : ResultCode) (s : State) : (complete code s).source = s.source := rfl
@[simp] theorem complete_sink (code : ResultCode) (s : State) : (complete code s).sink = s.sink := rfl
@[simp] theorem complete_turns (code : ResultCode) (s : State) : (complete code s).turns = s.turns := rfl
@[simp] theorem complete_portOut (code : ResultCode) (s : State) : (complete code s).portOut = s.portOut := rfl
@[simp] theorem complete_primOut (code : ResultCode) (s : State) : (complete code s).primOut = s.primOut := rfl
@[simp] theorem complete_params (code : ResultCode) (s : State) : (complete code s).params = s.params := rfl

/-! beginCommand -/

@[simp] theorem beginCommand_width (p : Params) (o : Opcode) (s : State) : (beginCommand p o s).width = s.width := rfl
@[simp] theorem beginCommand_height (p : Params) (o : Opcode) (s : State) : (beginCommand p o s).height = s.height := rfl
@[simp] theorem beginCommand_channels (p : Params) (o : Opcode) (s : State) : (beginCommand p o s).channels = s.channels := rfl
@[simp] theorem beginCommand_depth (p : Params) (o : Opcode) (s : State) : (beginCommand p o s).depth = s.depth := rfl
@[simp] theorem beginCommand_payloadLen (p : Params) (o : Opcode) (s : State) : (beginCommand p o s).payloadLen = s.payloadLen := rfl
@[simp] theorem beginCommand_busy (p : Params) (o : Opcode) (s : State) : (beginCommand p o s).busy = true := rfl
@[simp] theorem beginCommand_done (p : Params) (o : Opcode) (s : State) : (beginCommand p o s).done = false := rfl
@[simp] theorem beginCommand_result (p : Params) (o : Opcode) (s : State) : (beginCommand p o s).result = s.result := rfl
@[simp] theorem beginCommand_op (p : Params) (o : Opcode) (s : State) : (beginCommand p o s).op = o := rfl
@[simp] theorem beginCommand_stage (p : Params) (o : Opcode) (s : State) : (beginCommand p o s).stage = .check := rfl
@[simp] theorem beginCommand_scan (p : Params) (o : Opcode) (s : State) : (beginCommand p o s).scan = .seekStart 0 := rfl
@[simp] theorem beginCommand_capacity (p : Params) (o : Opcode) (s : State) : (beginCommand p o s).capacity = 0 := rfl
@[simp] theorem beginCommand_cksum (p : Params) (o : Opcode) (s : State) : (beginCommand p o s).cksum = 0 := rfl
@[simp] theorem beginCommand_stored (p : Params) (o : Opcode) (s : State) : (beginCommand p o s).stored = 0 := rfl
@[simp] theorem beginCommand_count (p : Params) (o : Opcode) (s : State) : (beginCommand p o s).count = 0 := rfl
@[simp] theorem beginCommand_cursor (p : Params) (o : Opcode) (s : State) : (beginCommand p o s).cursor = 0 := rfl
@[simp] theorem beginCommand_crcAcc (p : Params) (o : Opcode) (s : State) : (beginCommand p o s).crcAcc = p.crcInit := rfl
@[simp] theorem beginCommand_frIdx (p : Params) (o : Opcode) (s : State) : (beginCommand p o s).frIdx = 0 := rfl
@[simp] theorem beginCommand_frShift (p : Params) (o : Opcode) (s : State) : (beginCommand p o s).frShift = 0 := rfl
@[simp] theorem beginCommand_frBits (p : Params) (o : Opcode) (s : State) : (beginCommand p o s).frBits = 0 := rfl
@[simp] theorem beginCommand_asByte (p : Params) (o : Opcode) (s : State) : (beginCommand p o s).asByte = 0 := rfl
@[simp] theorem beginCommand_asCnt (p : Params) (o : Opcode) (s : State) : (beginCommand p o s).asCnt = 0 := rfl
@[simp] theorem beginCommand_mem (p : Params) (o : Opcode) (s : State) : (beginCommand p o s).mem = s.mem := rfl
@[simp] theorem beginCommand_source (p : Params) (o : Opcode) (s : State) : (beginCommand p o s).source = s.source := rfl
@[simp] theorem beginCommand_sink (p : Params) (o : Opcode) (s : State) : (beginCommand p o s).sink = s.sink := rfl
@[simp] theorem beginCommand_turns (p : Params) (o : Opcode) (s : State) : (beginCommand p o s).turns = s.turns := rfl
@[simp] theorem beginCommand_portOut (p : Params) (o : Opcode) (s : State) : (beginCommand p o s).portOut = s.portOut := rfl
@[simp] theorem beginCommand_primOut (p : Params) (o : Opcode) (s : State) : (beginCommand p o s).primOut = s.primOut := rfl
@[simp] theorem beginCommand_params (p : Params) (o : Opcode) (s : State) : (beginCommand p o s).params = s.params := rfl

/-! advanceFramer -/

@[simp] theorem advanceFramer_width (s : State) : (advanceFramer s).width = s.width := rfl
@[simp] theorem advanceFramer_height (s : State) : (advanceFramer s).height = s.height := rfl
@[simp] theorem advanceFramer_channels (s : State) : (advanceFramer s).channels = s.channels := rfl
@[simp] theorem advanceFramer_depth (s : State) : (advanceFramer s).depth = s.depth := rfl
@[simp] theorem advanceFramer_payloadLen (s : State) : (advanceFramer s).payloadLen = s.payloadLen := rfl
@[simp] theorem advanceFramer_busy (s : State) : (advanceFramer s).busy = s.busy := rfl
@[simp] theorem advanceFramer_done (s : State) : (advanceFramer s).done = s.done := rfl
@[simp] theorem advanceFramer_result (s : State) : (advanceFramer s).result = s.result := rfl
@[simp] theorem advanceFramer_op (s : State) : (advanceFramer s).op = s.op := rfl
@[simp] theorem advanceFramer_stage (s : State) : (advanceFramer s).stage = s.stage := rfl
@[simp] theorem advanceFramer_scan (s : State) : (advanceFramer s).scan = s.scan := rfl
@[simp] theorem advanceFramer_capacity (s : State) : (advanceFramer s).capacity = s.capacity := rfl
@[simp] theorem advanceFramer_cksum (s : State) : (advanceFramer s).cksum = s.cksum := rfl
@[simp] theorem advanceFramer_stored (s : State) : (advanceFramer s).stored = s.stored := rfl
@[simp] theorem advanceFramer_count (s : State) : (advanceFramer s).count = s.count := rfl
@[simp] theorem advanceFramer_cursor (s : State) : (advanceFramer s).cursor = s.cursor := rfl
@[simp] theorem advanceFramer_crcAcc (s : State) : (advanceFramer s).crcAcc = s.crcAcc := rfl
@[simp] theorem advanceFramer_frIdx (s : State) : (advanceFramer s).frIdx = s.frIdx + 1 := rfl
@[simp] theorem advanceFramer_frShift (s : State) : (advanceFramer s).frShift = s.frShift := rfl
@[simp] theorem advanceFramer_frBits (s : State) : (advanceFramer s).frBits = s.frBits := rfl
@[simp] theorem advanceFramer_asByte (s : State) : (advanceFramer s).asByte = s.asByte := rfl
@[simp] theorem advanceFramer_asCnt (s : State) : (advanceFramer s).asCnt = s.asCnt := rfl
@[simp] theorem advanceFramer_mem (s : State) : (advanceFramer s).mem = s.mem := rfl
@[simp] theorem advanceFramer_source (s : State) : (advanceFramer s).source = s.source := rfl
@[simp] theorem advanceFramer_sink (s : State) : (advanceFramer s).sink = s.sink := rfl
@[simp] theorem advanceFramer_turns (s : State) : (advanceFramer s).turns = s.turns := rfl
@[simp] theorem advanceFramer_portOut (s : State) : (advanceFramer s).portOut = s.portOut := rfl
@[simp] theorem advanceFramer_primOut (s : State) : (advanceFramer s).primOut = s.primOut := rfl
@[simp] theorem advanceFramer_params (s : State) : (advanceFramer s).params = s.params := rfl

/-! shiftFrame -/

@[simp] theorem shiftFrame_width (s : State) : (shiftFrame s).width = s.width := rfl
@[simp] theorem shiftFrame_height (s : State) : (shiftFrame s).height = s.height := rfl
@[simp] theorem shiftFrame_channels (s : State) : (shiftFrame s).channels = s.channels := rfl
@[simp] theorem shiftFrame_depth (s : State) : (shiftFrame s).depth = s.depth := rfl
@[simp] theorem shiftFrame_payloadLen (s : State) : (shiftFrame s).payloadLen = s.payloadLen := rfl
@[simp] theorem shiftFrame_busy (s : State) : (shiftFrame s).busy = s.busy := rfl
@[simp] theorem shiftFrame_done (s : State) : (shiftFrame s).done = s.done := rfl
@[simp] theorem shiftFrame_result (s : State) : (shiftFrame s).result = s.result := rfl
@[simp] theorem shiftFrame_op (s : State) : (shiftFrame s).op = s.op := rfl
@[simp] theorem shiftFrame_stage (s : State) : (shiftFrame s).stage = s.stage := rfl
@[simp] theorem shiftFrame_scan (s : State) : (shiftFrame s).scan = s.scan := rfl
@[simp] theorem shiftFrame_capacity (s : State) : (shiftFrame s).capacity = s.capacity := rfl
@[simp] theorem shiftFrame_cksum (s : State) : (shiftFrame s).cksum = s.cksum := rfl
@[simp] theorem shiftFrame_stored (s : State) : (shiftFrame s).stored = s.stored := rfl
@[simp] theorem shiftFrame_count (s : State) : (shiftFrame s).count = s.count := rfl
@[simp] theorem shiftFrame_cursor (s : State) : (shiftFrame s).cursor = s.cursor + 1 := rfl
@[simp] theorem shiftFrame_crcAcc (s : State) : (shiftFrame s).crcAcc = s.crcAcc := rfl
@[simp] theorem shiftFrame_frIdx (s : State) : (shiftFrame s).frIdx = s.frIdx := rfl
@[simp] theorem shiftFrame_frShift (s : State) : (shiftFrame s).frShift = s.frShift <<< 1 := rfl
@[simp] theorem shiftFrame_frBits (s : State) : (shiftFrame s).frBits = ⟨s.frBits.val - 1, by omega⟩ := rfl
@[simp] theorem shiftFrame_asByte (s : State) : (shiftFrame s).asByte = s.asByte := rfl
@[simp] theorem shiftFrame_asCnt (s : State) : (shiftFrame s).asCnt = s.asCnt := rfl
@[simp] theorem shiftFrame_mem (s : State) : (shiftFrame s).mem = s.mem := rfl
@[simp] theorem shiftFrame_source (s : State) : (shiftFrame s).source = s.source := rfl
@[simp] theorem shiftFrame_sink (s : State) : (shiftFrame s).sink = s.sink := rfl
@[simp] theorem shiftFrame_turns (s : State) : (shiftFrame s).turns = s.turns := rfl
@[simp] theorem shiftFrame_portOut (s : State) : (shiftFrame s).portOut = s.portOut := rfl
@[simp] theorem shiftFrame_primOut (s : State) : (shiftFrame s).primOut = s.primOut := rfl
@[simp] theorem shiftFrame_params (s : State) : (shiftFrame s).params = s.params := rfl

/-! encodeComplete -/

@[simp] theorem encodeComplete_width (p : Params) (s : State) : (encodeComplete p s).width = s.width := rfl
@[simp] theorem encodeComplete_height (p : Params) (s : State) : (encodeComplete p s).height = s.height := rfl
@[simp] theorem encodeComplete_channels (p : Params) (s : State) : (encodeComplete p s).channels = s.channels := rfl
@[simp] theorem encodeComplete_depth (p : Params) (s : State) : (encodeComplete p s).depth = s.depth := rfl
@[simp] theorem encodeComplete_payloadLen (p : Params) (s : State) : (encodeComplete p s).payloadLen = s.payloadLen := rfl
@[simp] theorem encodeComplete_busy (p : Params) (s : State) : (encodeComplete p s).busy = false := rfl
@[simp] theorem encodeComplete_done (p : Params) (s : State) : (encodeComplete p s).done = true := rfl
@[simp] theorem encodeComplete_result (p : Params) (s : State) : (encodeComplete p s).result = .ok := rfl
@[simp] theorem encodeComplete_op (p : Params) (s : State) : (encodeComplete p s).op = s.op := rfl
@[simp] theorem encodeComplete_stage (p : Params) (s : State) : (encodeComplete p s).stage = .check := rfl
@[simp] theorem encodeComplete_scan (p : Params) (s : State) : (encodeComplete p s).scan = s.scan := rfl
@[simp] theorem encodeComplete_capacity (p : Params) (s : State) : (encodeComplete p s).capacity = s.capacity := rfl
@[simp] theorem encodeComplete_cksum (p : Params) (s : State) : (encodeComplete p s).cksum = crcFinal p s.crcAcc := rfl
@[simp] theorem encodeComplete_stored (p : Params) (s : State) : (encodeComplete p s).stored = s.stored := rfl
@[simp] theorem encodeComplete_count (p : Params) (s : State) : (encodeComplete p s).count = s.count := rfl
@[simp] theorem encodeComplete_cursor (p : Params) (s : State) : (encodeComplete p s).cursor = s.cursor := rfl
@[simp] theorem encodeComplete_crcAcc (p : Params) (s : State) : (encodeComplete p s).crcAcc = s.crcAcc := rfl
@[simp] theorem encodeComplete_frIdx (p : Params) (s : State) : (encodeComplete p s).frIdx = s.frIdx := rfl
@[simp] theorem encodeComplete_frShift (p : Params) (s : State) : (encodeComplete p s).frShift = s.frShift := rfl
@[simp] theorem encodeComplete_frBits (p : Params) (s : State) : (encodeComplete p s).frBits = s.frBits := rfl
@[simp] theorem encodeComplete_asByte (p : Params) (s : State) : (encodeComplete p s).asByte = s.asByte := rfl
@[simp] theorem encodeComplete_asCnt (p : Params) (s : State) : (encodeComplete p s).asCnt = s.asCnt := rfl
@[simp] theorem encodeComplete_mem (p : Params) (s : State) : (encodeComplete p s).mem = s.mem := rfl
@[simp] theorem encodeComplete_source (p : Params) (s : State) : (encodeComplete p s).source = s.source := rfl
@[simp] theorem encodeComplete_sink (p : Params) (s : State) : (encodeComplete p s).sink = s.sink := rfl
@[simp] theorem encodeComplete_turns (p : Params) (s : State) : (encodeComplete p s).turns = s.turns := rfl
@[simp] theorem encodeComplete_portOut (p : Params) (s : State) : (encodeComplete p s).portOut = s.portOut := rfl
@[simp] theorem encodeComplete_primOut (p : Params) (s : State) : (encodeComplete p s).primOut = s.primOut := rfl
@[simp] theorem encodeComplete_params (p : Params) (s : State) : (encodeComplete p s).params = s.params := rfl

/-! emitByte -/

@[simp] theorem emitByte_width (p : Params) (b : Byte) (s : State) : (emitByte p b s).width = s.width := rfl
@[simp] theorem emitByte_height (p : Params) (b : Byte) (s : State) : (emitByte p b s).height = s.height := rfl
@[simp] theorem emitByte_channels (p : Params) (b : Byte) (s : State) : (emitByte p b s).channels = s.channels := rfl
@[simp] theorem emitByte_depth (p : Params) (b : Byte) (s : State) : (emitByte p b s).depth = s.depth := rfl
@[simp] theorem emitByte_payloadLen (p : Params) (b : Byte) (s : State) : (emitByte p b s).payloadLen = s.payloadLen := rfl
@[simp] theorem emitByte_busy (p : Params) (b : Byte) (s : State) : (emitByte p b s).busy = s.busy := rfl
@[simp] theorem emitByte_done (p : Params) (b : Byte) (s : State) : (emitByte p b s).done = s.done := rfl
@[simp] theorem emitByte_result (p : Params) (b : Byte) (s : State) : (emitByte p b s).result = s.result := rfl
@[simp] theorem emitByte_op (p : Params) (b : Byte) (s : State) : (emitByte p b s).op = s.op := rfl
@[simp] theorem emitByte_stage (p : Params) (b : Byte) (s : State) : (emitByte p b s).stage = s.stage := rfl
@[simp] theorem emitByte_scan (p : Params) (b : Byte) (s : State) : (emitByte p b s).scan = s.scan := rfl
@[simp] theorem emitByte_capacity (p : Params) (b : Byte) (s : State) : (emitByte p b s).capacity = s.capacity := rfl
@[simp] theorem emitByte_cksum (p : Params) (b : Byte) (s : State) : (emitByte p b s).cksum = s.cksum := rfl
@[simp] theorem emitByte_stored (p : Params) (b : Byte) (s : State) : (emitByte p b s).stored = s.stored := rfl
@[simp] theorem emitByte_count (p : Params) (b : Byte) (s : State) : (emitByte p b s).count = s.count + 1 := rfl
@[simp] theorem emitByte_cursor (p : Params) (b : Byte) (s : State) : (emitByte p b s).cursor = s.cursor := rfl
@[simp] theorem emitByte_crcAcc (p : Params) (b : Byte) (s : State) : (emitByte p b s).crcAcc = crcUpdate p s.crcAcc b := rfl
@[simp] theorem emitByte_frIdx (p : Params) (b : Byte) (s : State) : (emitByte p b s).frIdx = s.frIdx := rfl
@[simp] theorem emitByte_frShift (p : Params) (b : Byte) (s : State) : (emitByte p b s).frShift = s.frShift := rfl
@[simp] theorem emitByte_frBits (p : Params) (b : Byte) (s : State) : (emitByte p b s).frBits = s.frBits := rfl
@[simp] theorem emitByte_asByte (p : Params) (b : Byte) (s : State) : (emitByte p b s).asByte = s.asByte := rfl
@[simp] theorem emitByte_asCnt (p : Params) (b : Byte) (s : State) : (emitByte p b s).asCnt = s.asCnt := rfl
@[simp] theorem emitByte_mem (p : Params) (b : Byte) (s : State) : (emitByte p b s).mem = s.mem := rfl
@[simp] theorem emitByte_source (p : Params) (b : Byte) (s : State) : (emitByte p b s).source = s.source := rfl
@[simp] theorem emitByte_sink (p : Params) (b : Byte) (s : State) : (emitByte p b s).sink = s.sink ++ [b] := rfl
@[simp] theorem emitByte_turns (p : Params) (b : Byte) (s : State) : (emitByte p b s).turns = s.turns := rfl
@[simp] theorem emitByte_portOut (p : Params) (b : Byte) (s : State) : (emitByte p b s).portOut = s.portOut := rfl
@[simp] theorem emitByte_primOut (p : Params) (b : Byte) (s : State) : (emitByte p b s).primOut = s.primOut := rfl
@[simp] theorem emitByte_params (p : Params) (b : Byte) (s : State) : (emitByte p b s).params = s.params := rfl

/-! assembleBit -/

@[simp] theorem assembleBit_width (b : BitVec 1) (s : State) : (assembleBit b s).width = s.width := rfl
@[simp] theorem assembleBit_height (b : BitVec 1) (s : State) : (assembleBit b s).height = s.height := rfl
@[simp] theorem assembleBit_channels (b : BitVec 1) (s : State) : (assembleBit b s).channels = s.channels := rfl
@[simp] theorem assembleBit_depth (b : BitVec 1) (s : State) : (assembleBit b s).depth = s.depth := rfl
@[simp] theorem assembleBit_payloadLen (b : BitVec 1) (s : State) : (assembleBit b s).payloadLen = s.payloadLen := rfl
@[simp] theorem assembleBit_busy (b : BitVec 1) (s : State) : (assembleBit b s).busy = s.busy := rfl
@[simp] theorem assembleBit_done (b : BitVec 1) (s : State) : (assembleBit b s).done = s.done := rfl
@[simp] theorem assembleBit_result (b : BitVec 1) (s : State) : (assembleBit b s).result = s.result := rfl
@[simp] theorem assembleBit_op (b : BitVec 1) (s : State) : (assembleBit b s).op = s.op := rfl
@[simp] theorem assembleBit_stage (b : BitVec 1) (s : State) : (assembleBit b s).stage = s.stage := rfl
@[simp] theorem assembleBit_scan (b : BitVec 1) (s : State) : (assembleBit b s).scan = s.scan := rfl
@[simp] theorem assembleBit_capacity (b : BitVec 1) (s : State) : (assembleBit b s).capacity = s.capacity := rfl
@[simp] theorem assembleBit_cksum (b : BitVec 1) (s : State) : (assembleBit b s).cksum = s.cksum := rfl
@[simp] theorem assembleBit_stored (b : BitVec 1) (s : State) : (assembleBit b s).stored = s.stored := rfl
@[simp] theorem assembleBit_count (b : BitVec 1) (s : State) : (assembleBit b s).count = s.count := rfl
@[simp] theorem assembleBit_cursor (b : BitVec 1) (s : State) : (assembleBit b s).cursor = s.cursor + 1 := rfl
@[simp] theorem assembleBit_crcAcc (b : BitVec 1) (s : State) : (assembleBit b s).crcAcc = s.crcAcc := rfl
@[simp] theorem assembleBit_frIdx (b : BitVec 1) (s : State) : (assembleBit b s).frIdx = s.frIdx := rfl
@[simp] theorem assembleBit_frShift (b : BitVec 1) (s : State) : (assembleBit b s).frShift = s.frShift := rfl
@[simp] theorem assembleBit_frBits (b : BitVec 1) (s : State) : (assembleBit b s).frBits = s.frBits := rfl
@[simp] theorem assembleBit_asByte (b : BitVec 1) (s : State) : (assembleBit b s).asByte = (s.asByte <<< 1) ||| b.setWidth 8 := rfl
@[simp] theorem assembleBit_asCnt (b : BitVec 1) (s : State) : (assembleBit b s).asCnt = s.asCnt := rfl
@[simp] theorem assembleBit_mem (b : BitVec 1) (s : State) : (assembleBit b s).mem = s.mem := rfl
@[simp] theorem assembleBit_source (b : BitVec 1) (s : State) : (assembleBit b s).source = s.source := rfl
@[simp] theorem assembleBit_sink (b : BitVec 1) (s : State) : (assembleBit b s).sink = s.sink := rfl
@[simp] theorem assembleBit_turns (b : BitVec 1) (s : State) : (assembleBit b s).turns = s.turns := rfl
@[simp] theorem assembleBit_portOut (b : BitVec 1) (s : State) : (assembleBit b s).portOut = s.portOut := rfl
@[simp] theorem assembleBit_primOut (b : BitVec 1) (s : State) : (assembleBit b s).primOut = s.primOut := rfl
@[simp] theorem assembleBit_params (b : BitVec 1) (s : State) : (assembleBit b s).params = s.params := rfl

/-! decodeComplete -/

@[simp] theorem decodeComplete_width (p : Params) (s : State) : (decodeComplete p s).width = s.width := rfl
@[simp] theorem decodeComplete_height (p : Params) (s : State) : (decodeComplete p s).height = s.height := rfl
@[simp] theorem decodeComplete_channels (p : Params) (s : State) : (decodeComplete p s).channels = s.channels := rfl
@[simp] theorem decodeComplete_depth (p : Params) (s : State) : (decodeComplete p s).depth = s.depth := rfl
@[simp] theorem decodeComplete_payloadLen (p : Params) (s : State) : (decodeComplete p s).payloadLen = s.payloadLen := rfl
@[simp] theorem decodeComplete_busy (p : Params) (s : State) : (decodeComplete p s).busy = false := rfl
@[simp] theorem decodeComplete_done (p : Params) (s : State) : (decodeComplete p s).done = true := rfl
@[simp] theorem decodeComplete_result (p : Params) (s : State) : (decodeComplete p s).result = decodeResult { s with cksum := crcFinal p s.crcAcc } := rfl
@[simp] theorem decodeComplete_op (p : Params) (s : State) : (decodeComplete p s).op = s.op := rfl
@[simp] theorem decodeComplete_stage (p : Params) (s : State) : (decodeComplete p s).stage = .check := rfl
@[simp] theorem decodeComplete_scan (p : Params) (s : State) : (decodeComplete p s).scan = s.scan := rfl
@[simp] theorem decodeComplete_capacity (p : Params) (s : State) : (decodeComplete p s).capacity = s.capacity := rfl
@[simp] theorem decodeComplete_cksum (p : Params) (s : State) : (decodeComplete p s).cksum = crcFinal p s.crcAcc := rfl
@[simp] theorem decodeComplete_stored (p : Params) (s : State) : (decodeComplete p s).stored = s.stored := rfl
@[simp] theorem decodeComplete_count (p : Params) (s : State) : (decodeComplete p s).count = s.count := rfl
@[simp] theorem decodeComplete_cursor (p : Params) (s : State) : (decodeComplete p s).cursor = s.cursor := rfl
@[simp] theorem decodeComplete_crcAcc (p : Params) (s : State) : (decodeComplete p s).crcAcc = s.crcAcc := rfl
@[simp] theorem decodeComplete_frIdx (p : Params) (s : State) : (decodeComplete p s).frIdx = s.frIdx := rfl
@[simp] theorem decodeComplete_frShift (p : Params) (s : State) : (decodeComplete p s).frShift = s.frShift := rfl
@[simp] theorem decodeComplete_frBits (p : Params) (s : State) : (decodeComplete p s).frBits = s.frBits := rfl
@[simp] theorem decodeComplete_asByte (p : Params) (s : State) : (decodeComplete p s).asByte = s.asByte := rfl
@[simp] theorem decodeComplete_asCnt (p : Params) (s : State) : (decodeComplete p s).asCnt = s.asCnt := rfl
@[simp] theorem decodeComplete_mem (p : Params) (s : State) : (decodeComplete p s).mem = s.mem := rfl
@[simp] theorem decodeComplete_source (p : Params) (s : State) : (decodeComplete p s).source = s.source := rfl
@[simp] theorem decodeComplete_sink (p : Params) (s : State) : (decodeComplete p s).sink = s.sink := rfl
@[simp] theorem decodeComplete_turns (p : Params) (s : State) : (decodeComplete p s).turns = s.turns := rfl
@[simp] theorem decodeComplete_portOut (p : Params) (s : State) : (decodeComplete p s).portOut = s.portOut := rfl
@[simp] theorem decodeComplete_primOut (p : Params) (s : State) : (decodeComplete p s).primOut = s.primOut := rfl
@[simp] theorem decodeComplete_params (p : Params) (s : State) : (decodeComplete p s).params = s.params := rfl

/-! applyReset -/

@[simp] theorem applyReset_width (s : State) : (applyReset s).width = 0 := rfl
@[simp] theorem applyReset_height (s : State) : (applyReset s).height = 0 := rfl
@[simp] theorem applyReset_channels (s : State) : (applyReset s).channels = 0 := rfl
@[simp] theorem applyReset_depth (s : State) : (applyReset s).depth = 0 := rfl
@[simp] theorem applyReset_payloadLen (s : State) : (applyReset s).payloadLen = 0 := rfl
@[simp] theorem applyReset_busy (s : State) : (applyReset s).busy = false := rfl
@[simp] theorem applyReset_done (s : State) : (applyReset s).done = false := rfl
@[simp] theorem applyReset_result (s : State) : (applyReset s).result = .ok := rfl
@[simp] theorem applyReset_op (s : State) : (applyReset s).op = .none := rfl
@[simp] theorem applyReset_stage (s : State) : (applyReset s).stage = .check := rfl
@[simp] theorem applyReset_scan (s : State) : (applyReset s).scan = .seekStart 0 := rfl
@[simp] theorem applyReset_capacity (s : State) : (applyReset s).capacity = 0 := rfl
@[simp] theorem applyReset_cksum (s : State) : (applyReset s).cksum = 0 := rfl
@[simp] theorem applyReset_stored (s : State) : (applyReset s).stored = 0 := rfl
@[simp] theorem applyReset_count (s : State) : (applyReset s).count = 0 := rfl
@[simp] theorem applyReset_cursor (s : State) : (applyReset s).cursor = 0 := rfl
@[simp] theorem applyReset_crcAcc (s : State) : (applyReset s).crcAcc = 0 := rfl
@[simp] theorem applyReset_frIdx (s : State) : (applyReset s).frIdx = 0 := rfl
@[simp] theorem applyReset_frShift (s : State) : (applyReset s).frShift = 0 := rfl
@[simp] theorem applyReset_frBits (s : State) : (applyReset s).frBits = 0 := rfl
@[simp] theorem applyReset_asByte (s : State) : (applyReset s).asByte = 0 := rfl
@[simp] theorem applyReset_asCnt (s : State) : (applyReset s).asCnt = 0 := rfl
@[simp] theorem applyReset_mem (s : State) : (applyReset s).mem = s.mem := rfl
@[simp] theorem applyReset_source (s : State) : (applyReset s).source = s.source := rfl
@[simp] theorem applyReset_sink (s : State) : (applyReset s).sink = s.sink := rfl
@[simp] theorem applyReset_turns (s : State) : (applyReset s).turns = s.turns := rfl
@[simp] theorem applyReset_portOut (s : State) : (applyReset s).portOut = s.portOut := rfl
@[simp] theorem applyReset_primOut (s : State) : (applyReset s).primOut = s.primOut := rfl
@[simp] theorem applyReset_params (s : State) : (applyReset s).params = s.params := rfl

/-! emitBytes changes CRC_ACC, COUNT and the sink only. -/

@[simp] theorem emitBytes_width (p : Params) (bs : List Byte) (s : State) : (emitBytes p bs s).width = s.width := by
  induction bs generalizing s with
  | nil => rfl
  | cons b rest ih => rw [emitBytes, ih, emitByte_width]
@[simp] theorem emitBytes_height (p : Params) (bs : List Byte) (s : State) : (emitBytes p bs s).height = s.height := by
  induction bs generalizing s with
  | nil => rfl
  | cons b rest ih => rw [emitBytes, ih, emitByte_height]
@[simp] theorem emitBytes_channels (p : Params) (bs : List Byte) (s : State) : (emitBytes p bs s).channels = s.channels := by
  induction bs generalizing s with
  | nil => rfl
  | cons b rest ih => rw [emitBytes, ih, emitByte_channels]
@[simp] theorem emitBytes_depth (p : Params) (bs : List Byte) (s : State) : (emitBytes p bs s).depth = s.depth := by
  induction bs generalizing s with
  | nil => rfl
  | cons b rest ih => rw [emitBytes, ih, emitByte_depth]
@[simp] theorem emitBytes_payloadLen (p : Params) (bs : List Byte) (s : State) : (emitBytes p bs s).payloadLen = s.payloadLen := by
  induction bs generalizing s with
  | nil => rfl
  | cons b rest ih => rw [emitBytes, ih, emitByte_payloadLen]
@[simp] theorem emitBytes_busy (p : Params) (bs : List Byte) (s : State) : (emitBytes p bs s).busy = s.busy := by
  induction bs generalizing s with
  | nil => rfl
  | cons b rest ih => rw [emitBytes, ih, emitByte_busy]
@[simp] theorem emitBytes_done (p : Params) (bs : List Byte) (s : State) : (emitBytes p bs s).done = s.done := by
  induction bs generalizing s with
  | nil => rfl
  | cons b rest ih => rw [emitBytes, ih, emitByte_done]
@[simp] theorem emitBytes_result (p : Params) (bs : List Byte) (s : State) : (emitBytes p bs s).result = s.result := by
  induction bs generalizing s with
  | nil => rfl
  | cons b rest ih => rw [emitBytes, ih, emitByte_result]
@[simp] theorem emitBytes_op (p : Params) (bs : List Byte) (s : State) : (emitBytes p bs s).op = s.op := by
  induction bs generalizing s with
  | nil => rfl
  | cons b rest ih => rw [emitBytes, ih, emitByte_op]
@[simp] theorem emitBytes_stage (p : Params) (bs : List Byte) (s : State) : (emitBytes p bs s).stage = s.stage := by
  induction bs generalizing s with
  | nil => rfl
  | cons b rest ih => rw [emitBytes, ih, emitByte_stage]
@[simp] theorem emitBytes_scan (p : Params) (bs : List Byte) (s : State) : (emitBytes p bs s).scan = s.scan := by
  induction bs generalizing s with
  | nil => rfl
  | cons b rest ih => rw [emitBytes, ih, emitByte_scan]
@[simp] theorem emitBytes_capacity (p : Params) (bs : List Byte) (s : State) : (emitBytes p bs s).capacity = s.capacity := by
  induction bs generalizing s with
  | nil => rfl
  | cons b rest ih => rw [emitBytes, ih, emitByte_capacity]
@[simp] theorem emitBytes_cksum (p : Params) (bs : List Byte) (s : State) : (emitBytes p bs s).cksum = s.cksum := by
  induction bs generalizing s with
  | nil => rfl
  | cons b rest ih => rw [emitBytes, ih, emitByte_cksum]
@[simp] theorem emitBytes_stored (p : Params) (bs : List Byte) (s : State) : (emitBytes p bs s).stored = s.stored := by
  induction bs generalizing s with
  | nil => rfl
  | cons b rest ih => rw [emitBytes, ih, emitByte_stored]
@[simp] theorem emitBytes_cursor (p : Params) (bs : List Byte) (s : State) : (emitBytes p bs s).cursor = s.cursor := by
  induction bs generalizing s with
  | nil => rfl
  | cons b rest ih => rw [emitBytes, ih, emitByte_cursor]
@[simp] theorem emitBytes_frIdx (p : Params) (bs : List Byte) (s : State) : (emitBytes p bs s).frIdx = s.frIdx := by
  induction bs generalizing s with
  | nil => rfl
  | cons b rest ih => rw [emitBytes, ih, emitByte_frIdx]
@[simp] theorem emitBytes_frShift (p : Params) (bs : List Byte) (s : State) : (emitBytes p bs s).frShift = s.frShift := by
  induction bs generalizing s with
  | nil => rfl
  | cons b rest ih => rw [emitBytes, ih, emitByte_frShift]
@[simp] theorem emitBytes_frBits (p : Params) (bs : List Byte) (s : State) : (emitBytes p bs s).frBits = s.frBits := by
  induction bs generalizing s with
  | nil => rfl
  | cons b rest ih => rw [emitBytes, ih, emitByte_frBits]
@[simp] theorem emitBytes_asByte (p : Params) (bs : List Byte) (s : State) : (emitBytes p bs s).asByte = s.asByte := by
  induction bs generalizing s with
  | nil => rfl
  | cons b rest ih => rw [emitBytes, ih, emitByte_asByte]
@[simp] theorem emitBytes_asCnt (p : Params) (bs : List Byte) (s : State) : (emitBytes p bs s).asCnt = s.asCnt := by
  induction bs generalizing s with
  | nil => rfl
  | cons b rest ih => rw [emitBytes, ih, emitByte_asCnt]
@[simp] theorem emitBytes_mem (p : Params) (bs : List Byte) (s : State) : (emitBytes p bs s).mem = s.mem := by
  induction bs generalizing s with
  | nil => rfl
  | cons b rest ih => rw [emitBytes, ih, emitByte_mem]
@[simp] theorem emitBytes_source (p : Params) (bs : List Byte) (s : State) : (emitBytes p bs s).source = s.source := by
  induction bs generalizing s with
  | nil => rfl
  | cons b rest ih => rw [emitBytes, ih, emitByte_source]
@[simp] theorem emitBytes_turns (p : Params) (bs : List Byte) (s : State) : (emitBytes p bs s).turns = s.turns := by
  induction bs generalizing s with
  | nil => rfl
  | cons b rest ih => rw [emitBytes, ih, emitByte_turns]
@[simp] theorem emitBytes_portOut (p : Params) (bs : List Byte) (s : State) : (emitBytes p bs s).portOut = s.portOut := by
  induction bs generalizing s with
  | nil => rfl
  | cons b rest ih => rw [emitBytes, ih, emitByte_portOut]
@[simp] theorem emitBytes_primOut (p : Params) (bs : List Byte) (s : State) : (emitBytes p bs s).primOut = s.primOut := by
  induction bs generalizing s with
  | nil => rfl
  | cons b rest ih => rw [emitBytes, ih, emitByte_primOut]
@[simp] theorem emitBytes_params (p : Params) (bs : List Byte) (s : State) : (emitBytes p bs s).params = s.params := by
  induction bs generalizing s with
  | nil => rfl
  | cons b rest ih => rw [emitBytes, ih, emitByte_params]

@[simp] theorem emitBytes_sink (p : Params) (bs : List Byte) (s : State) : (emitBytes p bs s).sink = s.sink ++ bs := by
  induction bs generalizing s with
  | nil => simp [emitBytes]
  | cons b rest ih => rw [emitBytes, ih, emitByte_sink, List.append_assoc, List.singleton_append]

@[simp] theorem emitBytes_crcAcc (p : Params) (bs : List Byte) (s : State) :
    (emitBytes p bs s).crcAcc = bs.foldl (crcUpdate p) s.crcAcc := by
  induction bs generalizing s with
  | nil => rfl
  | cons b rest ih => rw [emitBytes, ih, emitByte_crcAcc, List.foldl_cons]

@[simp] theorem emitBytes_count (p : Params) (bs : List Byte) (s : State) :
    (emitBytes p bs s).count = s.count + BitVec.ofNat 64 bs.length := by
  induction bs generalizing s with
  | nil => simp [emitBytes]
  | cons b rest ih =>
    rw [emitBytes, ih, emitByte_count, List.length_cons, BitVec.ofNat_add, BitVec.add_assoc]
    exact congrArg (s.count + ·) (BitVec.add_comm _ _)

/-- Everything EMIT of several bytes does (R230, R232). -/
theorem emitBytes_eq (p : Params) (bs : List Byte) (s : State) :
    emitBytes p bs s =
      { s with
        sink := s.sink ++ bs, crcAcc := bs.foldl (crcUpdate p) s.crcAcc
        count := s.count + BitVec.ofNat 64 bs.length } := by
  induction bs generalizing s with
  | nil => cases s; simp [emitBytes]
  | cons b rest ih =>
    rw [emitBytes, ih]
    cases s
    simp only [emitByte, sinkPush, List.foldl_cons, List.append_assoc, List.singleton_append, List.length_cons,
      BitVec.ofNat_add, BitVec.add_assoc, State.mk.injEq, true_and, and_true]
    exact congrArg _ (BitVec.add_comm _ _)

end Sys2Proof.Machine
end

