-- ==== Sys2Proof/Laws/Memory.lean ====
section
/-! SUPPORT. The laws of the sample buffer: a read after a write, the frame of a write, and the canonical form, which
every memory operation keeps and which makes equal buffers equal data. -/

namespace Sys2Proof.Machine

theorem cellsWf_mono {lo lo' size : Nat} (cells : List Host.Cell) (hle : lo' ≤ lo) (h : cellsWf lo size cells = true) :
    cellsWf lo' size cells = true := by
  cases cells with
  | nil => rfl
  | cons c rest =>
    simp only [cellsWf, Bool.and_eq_true, decide_eq_true_eq] at h ⊢
    exact ⟨⟨⟨hle.trans h.1.1.1, h.1.1.2⟩, h.1.2⟩, h.2⟩

theorem cellAt_below {lo size : Nat} (cells : List Host.Cell) (h : cellsWf lo size cells = true) {a : Nat} (ha : a < lo) :
    cellAt cells a = 0 := by
  induction cells generalizing lo with
  | nil => rfl
  | cons c rest ih =>
    obtain ⟨b, v⟩ := c
    simp only [cellsWf, Bool.and_eq_true, decide_eq_true_eq] at h
    have hne : b ≠ a := by omega
    rw [cellAt, if_neg hne]
    exact ih h.2 (by omega)

/-- Writing one byte: that offset reads the byte, every other offset reads as before. -/
theorem cellAt_putCell {lo size : Nat} (cells : List Host.Cell) (h : cellsWf lo size cells = true) (a b : Nat) (v : Byte) :
    cellAt (putCell cells a v) b = if b = a then v else cellAt cells b := by
  induction cells generalizing lo with
  | nil =>
    by_cases hv : v = 0#8
    · simp [putCell, hv, cellAt]
    · by_cases hb : b = a
      · simp [putCell, hv, cellAt, hb]
      · simp [putCell, hv, cellAt, hb, Ne.symm hb]
  | cons c rest ih =>
    obtain ⟨d, w⟩ := c
    have h' := h
    simp only [cellsWf, Bool.and_eq_true, decide_eq_true_eq] at h'
    have hbelow : ∀ x, x ≤ d → cellAt rest x = 0 := fun x hx => cellAt_below rest h'.2 (by omega)
    by_cases h1 : a < d
    · by_cases hv : v = 0#8
      · by_cases hb : b = a
        · subst hb
          have : d ≠ b := by omega
          simp [putCell, h1, hv, cellAt, this, hbelow b (by omega)]
        · simp [putCell, h1, hv, hb]
      · by_cases hb : b = a
        · simp [putCell, h1, hv, cellAt, hb]
        · simp [putCell, h1, hv, cellAt, hb, Ne.symm hb]
    · by_cases h2 : a = d
      · subst h2
        by_cases hv : v = 0#8
        · by_cases hb : b = a
          · subst hb; simp [putCell, hv, hbelow b le_rfl]
          · simp [putCell, hv, cellAt, hb, Ne.symm hb]
        · by_cases hb : b = a
          · simp [putCell, hv, cellAt, hb]
          · simp [putCell, hv, cellAt, hb, Ne.symm hb]
      · rw [putCell, if_neg h1, if_neg h2, cellAt, cellAt, ih h'.2]
        by_cases hb : b = a
        · subst hb; simp [Ne.symm h2]
        · simp [hb]

/-- Writing one byte inside the buffer keeps the canonical form. -/
theorem cellsWf_putCell {lo size : Nat} (cells : List Host.Cell) (h : cellsWf lo size cells = true) {a : Nat}
    (hlo : lo ≤ a) (hhi : a < size) (v : Byte) : cellsWf lo size (putCell cells a v) = true := by
  induction cells generalizing lo with
  | nil =>
    by_cases hv : v = 0#8
    · simp [putCell, hv, cellsWf]
    · simp [putCell, hv, cellsWf, hlo, hhi]
  | cons c rest ih =>
    obtain ⟨d, w⟩ := c
    have h' := h
    simp only [cellsWf, Bool.and_eq_true, decide_eq_true_eq] at h'
    by_cases h1 : a < d
    · by_cases hv : v = 0#8
      · simp [putCell, h1, hv, h]
      · have hv' : ¬v = (0 : Byte) := hv
        rw [putCell, if_pos h1, if_neg hv']
        simp only [cellsWf, Bool.and_eq_true, decide_eq_true_eq]
        exact ⟨⟨⟨hlo, hhi⟩, by simpa using hv⟩, ⟨⟨h1, h'.1.1.2⟩, h'.1.2⟩, h'.2⟩
    · by_cases h2 : a = d
      · subst h2
        by_cases hv : v = 0#8
        · simpa [putCell, hv] using cellsWf_mono rest (by omega) h'.2
        · have hv' : ¬v = (0 : Byte) := hv
          rw [putCell, if_neg (lt_irrefl a), if_pos rfl, if_neg hv']
          simp only [cellsWf, Bool.and_eq_true, decide_eq_true_eq]
          exact ⟨⟨⟨hlo, hhi⟩, by simpa using hv⟩, h'.2⟩
      · rw [putCell, if_neg h1, if_neg h2]
        simp only [cellsWf, Bool.and_eq_true, decide_eq_true_eq]
        exact ⟨h'.1, ih h'.2 (by omega)⟩

/-- Cells in canonical form are determined by what they read as. -/
theorem cells_ext {lo size : Nat} (cells cells' : List Host.Cell) (h : cellsWf lo size cells = true)
    (h' : cellsWf lo size cells' = true) (heq : ∀ a, cellAt cells a = cellAt cells' a) : cells = cells' := by
  induction cells generalizing lo cells' with
  | nil =>
    cases cells' with
    | nil => rfl
    | cons c rest =>
      simp only [cellsWf, Bool.and_eq_true, bne_iff_ne, ne_eq] at h'
      exact absurd (by simpa [cellAt] using (heq c.1).symm) h'.1.2
  | cons c rest ih =>
    obtain ⟨a, v⟩ := c
    cases cells' with
    | nil =>
      simp only [cellsWf, Bool.and_eq_true, bne_iff_ne, ne_eq] at h
      exact absurd (by simpa [cellAt] using heq a) h.1.2
    | cons c' rest' =>
      obtain ⟨a', v'⟩ := c'
      simp only [cellsWf, Bool.and_eq_true, decide_eq_true_eq, bne_iff_ne, ne_eq] at h h'
      have haa : a = a' := by
        rcases lt_trichotomy a a' with hlt | heqa | hgt
        · have e := heq a
          rw [cellAt, if_pos rfl, cellAt, if_neg (by omega), cellAt_below rest' h'.2 (by omega)] at e
          exact absurd e h.1.2
        · exact heqa
        · have e := heq a'
          rw [cellAt, if_neg (by omega), cellAt_below rest h.2 (by omega), cellAt, if_pos rfl] at e
          exact absurd e.symm h'.1.2
      subst haa
      have hv : v = v' := by simpa [cellAt] using heq a
      subst hv
      refine congrArg _ (ih rest' h.2 h'.2 fun b => ?_)
      by_cases hb : a = b
      · subst hb
        rw [cellAt_below rest h.2 (by omega), cellAt_below rest' h'.2 (by omega)]
      · simpa [cellAt, hb] using heq b

@[simp] theorem Memory.write_size (m : Memory) (a : Nat) (v : Byte) : (m.write a v).size = m.size := by
  unfold Memory.write; split <;> rfl

theorem Memory.write_wf {m : Memory} (h : m.wf = true) (a : Nat) (v : Byte) : (m.write a v).wf = true := by
  unfold Memory.write
  split
  · exact cellsWf_putCell m.cells h (Nat.zero_le a) ‹_› v
  · exact h

/-- A read after a write to the same offset of the buffer gives the byte written. -/
theorem Memory.read_write_same {m : Memory} (h : m.wf = true) {a : Nat} (ha : a < m.size) (v : Byte) :
    (m.write a v).read a = some v := by
  simp [Memory.read, Memory.write, ha, cellAt_putCell m.cells h]

/-- A write leaves every other offset alone. -/
theorem Memory.read_write_other {m : Memory} (h : m.wf = true) {a b : Nat} (hb : b ≠ a) (v : Byte) :
    (m.write a v).read b = m.read b := by
  unfold Memory.write
  split
  · simp [Memory.read, cellAt_putCell m.cells h, hb]
  · rfl

/-- Writing back the byte an offset holds changes nothing. -/
theorem Memory.write_read_self {m : Memory} (h : m.wf = true) {a : Nat} {v : Byte} (hv : m.read a = some v) :
    m.write a v = m := by
  have ha : a < m.size := by
    by_contra hc
    simp [Memory.read, hc] at hv
  have hcell : cellAt m.cells a = v := by simpa [Memory.read, ha] using hv
  have := cells_ext (putCell m.cells a v) m.cells (cellsWf_putCell m.cells h (Nat.zero_le a) ha v) h fun b => by
    rw [cellAt_putCell m.cells h]
    split
    · subst_vars; rfl
    · rfl
  simp [Memory.write, ha, this]

@[simp] theorem Memory.writeBytes_size (m : Memory) (a : Nat) (bs : List Byte) : (m.writeBytes a bs).size = m.size := by
  induction bs generalizing m a with
  | nil => rfl
  | cons b rest ih => rw [Memory.writeBytes, ih, Memory.write_size]

theorem Memory.writeBytes_wf {m : Memory} (h : m.wf = true) (a : Nat) (bs : List Byte) : (m.writeBytes a bs).wf = true := by
  induction bs generalizing m a with
  | nil => exact h
  | cons b rest ih => exact ih (Memory.write_wf h a b) (a + 1)

theorem Memory.writeBytes_read_before {m : Memory} (h : m.wf = true) {a b : Nat} (hb : b < a) (bs : List Byte) :
    (m.writeBytes a bs).read b = m.read b := by
  induction bs generalizing m a with
  | nil => rfl
  | cons c rest ih =>
    rw [Memory.writeBytes, ih (Memory.write_wf h a c) (by omega), Memory.read_write_other h (by omega)]

theorem Memory.writeBytes_read_after {m : Memory} (h : m.wf = true) {a b : Nat} (bs : List Byte) (hb : a + bs.length ≤ b) :
    (m.writeBytes a bs).read b = m.read b := by
  induction bs generalizing m a with
  | nil => rfl
  | cons c rest ih =>
    simp only [List.length_cons] at hb
    rw [Memory.writeBytes, ih (Memory.write_wf h a c) (by omega), Memory.read_write_other h (by omega)]

@[simp] theorem Memory.ofBytes_size (bs : List Byte) : (Memory.ofBytes bs).size = bs.length :=
  Memory.writeBytes_size _ _ _

theorem Memory.ofBytes_wf (bs : List Byte) : (Memory.ofBytes bs).wf = true := Memory.writeBytes_wf rfl 0 bs

/-- Consecutive bytes written inside the buffer read back as written. -/
theorem Memory.writeBytes_read {m : Memory} (h : m.wf = true) {a : Nat} (bs : List Byte) (hfit : a + bs.length ≤ m.size)
    {k : Nat} (hk : k < bs.length) : (m.writeBytes a bs).read (a + k) = some (bs.getD k 0) := by
  induction bs generalizing m a k with
  | nil => simp at hk
  | cons c rest ih =>
    simp only [List.length_cons] at hfit hk
    cases k with
    | zero =>
      rw [Memory.writeBytes, Memory.writeBytes_read_before (Memory.write_wf h a c) (by omega), Nat.add_zero,
        Memory.read_write_same h (by omega)]
      rfl
    | succ k =>
      have := ih (m := m.write a c) (a := a + 1) (k := k) (Memory.write_wf h a c) (by simp; omega) (by omega)
      rw [Memory.writeBytes, show a + (k + 1) = a + 1 + k by omega, this]
      rfl

/-- An attached buffer reads as the bytes the host gave (R315). -/
theorem Memory.ofBytes_read (bs : List Byte) {k : Nat} (hk : k < bs.length) :
    (Memory.ofBytes bs).read k = some (bs.getD k 0) := by
  simpa [Memory.ofBytes] using
    Memory.writeBytes_read (m := { size := bs.length, cells := [] }) (a := 0) rfl bs (by simp) hk

end Sys2Proof.Machine
end

