-- ==== Sys2Proof/Laws/Ops.lean ====
section
/-! SUPPORT. One lemma per shared operation that says everything it can do: the marker bytes, the geometry check, the
sample access, the framer's pull, the refill and the scanner's byte step. Callers cite these instead of unfolding. -/

namespace Sys2Proof.Machine

/-! ### Markers and geometry -/

theorem startByte_eq : ∀ n < 4, startByte n = [0x0F, 0x1F, 0x2F, 0xFF].getD n 0 := by decide

theorem endByte_eq : ∀ n < 4, endByte n = [0x0E, 0x1E, 0x2E, 0xEE].getD n 0 := by decide

theorem heldBack_eq : ∀ n < 4, heldBack n = [0x0E, 0x1E, 0x2E].take n := by decide

theorem heldBack_length (n : Nat) : (heldBack n).length = n := by simp [heldBack]

theorem bitVec_eq_iff_toNat {n : Nat} (x : BitVec n) (k : Nat) (hk : k < 2 ^ n) :
    x = BitVec.ofNat n k ↔ x.toNat = k := by
  rw [← BitVec.toNat_inj, BitVec.toNat_ofNat, Nat.mod_eq_of_lt hk]

/-- GeomOK is R131's condition in numbers. -/
theorem geometryOk_iff (p : Params) (s : State) : geometryOk p s = true ↔ GeometryLegal p s := by
  have hc : ∀ k : Nat, k < 2 ^ 32 → (s.channels = BitVec.ofNat 32 k ↔ s.channels.toNat = k) :=
    fun k hk => bitVec_eq_iff_toNat _ k hk
  have hd : ∀ k : Nat, k < 2 ^ 32 → (s.depth = BitVec.ofNat 32 k ↔ s.depth.toNat = k) :=
    fun k hk => bitVec_eq_iff_toNat _ k hk
  have e1 := hc 1 (by norm_num)
  have e2 := hc 2 (by norm_num)
  have e3 := hc 3 (by norm_num)
  have e4 := hc 4 (by norm_num)
  have e8 := hd 8 (by norm_num)
  have e16 := hd 16 (by norm_num)
  have hL : bufferLength s = s.width.toNat * s.height.toNat * s.channels.toNat * (s.depth.toNat / 8) := rfl
  simp only [geometryOk, Bool.and_eq_true, Bool.or_eq_true, beq_iff_eq, decide_eq_true_eq, hL]
  constructor
  · rintro ⟨⟨hch, hde⟩, hl⟩
    refine ⟨?_, ?_, hl⟩
    · rcases hch with ((h | h) | h) | h
      · have := e1.1 h; omega
      · have := e2.1 h; omega
      · have := e3.1 h; omega
      · have := e4.1 h; omega
    · rcases hde with h | h
      · exact .inl (e8.1 h)
      · exact .inr (e16.1 h)
  · rintro ⟨⟨h1, h4⟩, hde, hl⟩
    refine ⟨⟨?_, ?_⟩, hl⟩
    · have : s.channels.toNat = 1 ∨ s.channels.toNat = 2 ∨ s.channels.toNat = 3 ∨ s.channels.toNat = 4 := by omega
      rcases this with h | h | h | h
      · exact .inl (.inl (.inl (e1.2 h)))
      · exact .inl (.inl (.inr (e2.2 h)))
      · exact .inl (.inr (e3.2 h))
      · exact .inr (e4.2 h)
    · rcases hde with h | h
      · exact .inl (e8.2 h)
      · exact .inr (e16.2 h)

/-- A legal geometry has one or two bytes per sample. -/
theorem GeometryLegal.bytesPerSample {p : Params} {s : State} (h : GeometryLegal p s) :
    (s.depth.toNat = 8 ∧ bytesPerSample s = 1) ∨ (s.depth.toNat = 16 ∧ bytesPerSample s = 2) := by
  unfold Machine.bytesPerSample
  rcases h.2.1 with h | h <;> simp [h]

/-- S fits the 64-bit registers once the geometry is legal (R34, R137). -/
theorem GeometryLegal.sampleCount_lt {p : Params} {s : State} (h : GeometryLegal p s) : sampleCount s < 2 ^ 64 := by
  have hl : sampleCount s * Machine.bytesPerSample s ≤ p.maxBufBytes.toNat := h.2.2
  have := p.maxBufBytes.isLt
  rcases h.bytesPerSample with ⟨_, hb⟩ | ⟨_, hb⟩ <;> rw [hb] at hl <;> omega

/-! ### The sample access -/

/-- The byte of a sample stands where R63 puts it. -/
theorem sampleAddr_eq_some_iff (s : State) (k a : Nat) :
    sampleAddr s k = some a ↔ (s.depth.toNat = 8 ∧ a = k) ∨ (s.depth.toNat = 16 ∧ a = 2 * k + 1) := by
  have e8 : s.depth = 8 ↔ s.depth.toNat = 8 := bitVec_eq_iff_toNat s.depth 8 (by norm_num)
  have e16 : s.depth = 16 ↔ s.depth.toNat = 16 := bitVec_eq_iff_toNat s.depth 16 (by norm_num)
  unfold sampleAddr
  split
  · have := e8.1 ‹_›
    simp only [Option.some.injEq]
    omega
  · have h8 : ¬ s.depth.toNat = 8 := fun h => ‹¬ s.depth = 8› (e8.2 h)
    split
    · have := e16.1 ‹_›
      simp only [Option.some.injEq]
      omega
    · have h16 : ¬ s.depth.toNat = 16 := fun h => ‹¬ s.depth = 16› (e16.2 h)
      simp [h8, h16]

theorem sampleAddr_eq_none_iff (s : State) (k : Nat) :
    sampleAddr s k = none ↔ s.depth.toNat ≠ 8 ∧ s.depth.toNat ≠ 16 := by
  cases h : sampleAddr s k with
  | none =>
    refine ⟨fun _ => ⟨fun h8 => ?_, fun h16 => ?_⟩, fun _ => rfl⟩
    · have := (sampleAddr_eq_some_iff s k k).2 (.inl ⟨h8, rfl⟩)
      simp [this] at h
    · have := (sampleAddr_eq_some_iff s k (2 * k + 1)).2 (.inr ⟨h16, rfl⟩)
      simp [this] at h
  | some a =>
    have := (sampleAddr_eq_some_iff s k a).1 h
    constructor
    · intro hc; cases hc
    · intro hc; omega

theorem bufferLength_eight {s : State} (h : s.depth.toNat = 8) : bufferLength s = sampleCount s := by
  simp [bufferLength, bytesPerSample, h]

theorem bufferLength_sixteen {s : State} (h : s.depth.toNat = 16) : bufferLength s = 2 * sampleCount s := by
  simp [bufferLength, bytesPerSample, h, Nat.mul_comm]

/-- The offset of a sample is in the address space exactly when its index is below S (R73). -/
theorem sampleAddr_lt_bufferLength {s : State} {k a : Nat} (h : sampleAddr s k = some a) :
    a < bufferLength s ↔ k < sampleCount s := by
  rcases (sampleAddr_eq_some_iff s k a).1 h with ⟨hd, rfl⟩ | ⟨hd, rfl⟩
  · rw [bufferLength_eight hd]
  · rw [bufferLength_sixteen hd]; omega

theorem sampleOffset_ok_iff (s : State) (k a : Nat) :
    sampleOffset s k = .ok a ↔ sampleAddr s k = some a ∧ k < sampleCount s := by
  unfold sampleOffset
  cases h : sampleAddr s k with
  | none => simp
  | some b =>
    simp only [sampleAddr_lt_bufferLength h]
    split <;> simp_all

/-- Everything a sample read can do when it succeeds. -/
theorem readSample_ok_iff (s : State) (k : Nat) (v : Byte) :
    readSample s k = .ok v ↔ ∃ a, SampleHolds s k a v := by
  unfold readSample SampleHolds
  constructor
  · intro h
    cases ho : sampleOffset s k with
    | error f => simp [ho] at h
    | ok a =>
      obtain ⟨ha, hk⟩ := (sampleOffset_ok_iff s k a).1 ho
      simp only [ho] at h
      cases hr : s.mem.read a with
      | none => simp [hr] at h
      | some b =>
        simp only [hr, Except.ok.injEq] at h
        exact ⟨a, hk, (sampleAddr_eq_some_iff s k a).1 ha, by rw [hr, h]⟩
  · rintro ⟨a, hk, ha, hr⟩
    rw [(sampleOffset_ok_iff s k a).2 ⟨(sampleAddr_eq_some_iff s k a).2 ha, hk⟩]
    simp [hr]

theorem Memory.lt_size_of_read {m : Memory} {a : Nat} {v : Byte} (h : m.read a = some v) : a < m.size := by
  by_contra hc
  simp [Memory.read, hc] at h

/-- Everything EMBED_STEP can do when it succeeds (R184). -/
theorem embedStep_ok_iff (s t : State) (k : Nat) (bit : BitVec 1) :
    embedStep k bit s = .ok t ↔
      ∃ a v, SampleHolds s k a v ∧ t = { s with mem := s.mem.write a (setLsb v bit) } := by
  unfold embedStep
  constructor
  · intro h
    cases hr : readSample s k with
    | error f => simp [hr] at h
    | ok v =>
      obtain ⟨a, hv⟩ := (readSample_ok_iff s k v).1 hr
      have ho := (sampleOffset_ok_iff s k a).2 ⟨(sampleAddr_eq_some_iff s k a).2 hv.2.1, hv.1⟩
      simp only [hr, writeSample, ho, Memory.lt_size_of_read hv.2.2, if_true, Except.ok.injEq] at h
      exact ⟨a, v, hv, h.symm⟩
  · rintro ⟨a, v, hv, rfl⟩
    have ho := (sampleOffset_ok_iff s k a).2 ⟨(sampleAddr_eq_some_iff s k a).2 hv.2.1, hv.1⟩
    simp only [(readSample_ok_iff s k v).2 ⟨a, hv⟩, writeSample, ho, Memory.lt_size_of_read hv.2.2, if_true]

/-- With the buffer attached every sample below S has a byte (R73, R321). -/
theorem BufferAttached.holds {p : Params} {s : State} (hg : GeometryLegal p s) (hb : BufferAttached s) {k : Nat}
    (hk : k < sampleCount s) : ∃ a v, SampleHolds s k a v := by
  have hread : ∀ a, a < s.mem.size → ∃ v, s.mem.read a = some v := fun a ha => ⟨cellAt s.mem.cells a, by simp [Memory.read, ha]⟩
  unfold BufferAttached at hb
  rcases hg.2.1 with hd | hd
  · rw [bufferLength_eight hd] at hb
    obtain ⟨v, hv⟩ := hread k (by omega)
    exact ⟨k, v, hk, .inl ⟨hd, rfl⟩, hv⟩
  · rw [bufferLength_sixteen hd] at hb
    obtain ⟨v, hv⟩ := hread (2 * k + 1) (by omega)
    exact ⟨2 * k + 1, v, hk, .inr ⟨hd, rfl⟩, hv⟩

/-- Two samples stand at different offsets. -/
theorem SampleHolds.offset_inj {s t : State} {j k a b : Nat} {v w : Byte} (hd : s.depth = t.depth)
    (h : SampleHolds s j a v) (h' : SampleHolds t k b w) : a = b ↔ j = k := by
  have := h.2.1
  have := h'.2.1
  rw [hd] at *
  omega

theorem oneByteWritten_write {m : Memory} (h : m.wf = true) {a : Nat} {v : Byte} (hr : m.read a = some v) (w : Byte) :
    OneByteWritten m (m.write a w) a w :=
  ⟨Memory.write_size m a w, Memory.read_write_same h (Memory.lt_size_of_read hr) w,
    fun _ hb => Memory.read_write_other h hb w⟩

theorem setLsb_toNat : ∀ (v : Byte) (bit : BitVec 1), (setLsb v bit).toNat = v.toNat / 2 * 2 + bit.toNat := by decide

theorem getLsb_toNat : ∀ v : Byte, (getLsb v).toNat = v.toNat % 2 := by decide

/-! ### The framer -/

theorem checksumByte_toNat (c : Word32) (j : Nat) :
    (checksumByte c j).toNat = c.toNat / 2 ^ (24 - 8 * j) % 256 := by
  simp [checksumByte, BitVec.toNat_setWidth, Nat.shiftRight_eq_div_pow]

/-- FramerPull gives a byte exactly where R157's table does, and changes FR_IDX, CRC_ACC and the source only. -/
theorem framerPull_byte_iff (p : Params) (s t : State) (b : Byte) :
    framerPull p s = .byte b t ↔
      ∃ crc source, PullsByte p s b crc source ∧
        t = { s with frIdx := s.frIdx + 1, crcAcc := crc, source := source } := by
  unfold framerPull PullsByte payloadBytes
  generalize hi : s.frIdx.toNat = i
  generalize hn : s.payloadLen.toNat = n
  dsimp only
  by_cases h1 : i < 4
  · rw [if_pos h1, startByte_eq i h1]
    constructor
    · intro h
      obtain ⟨rfl, rfl⟩ := Pull.byte.inj h
      exact ⟨_, _, .inl ⟨h1, rfl, rfl, rfl⟩, rfl⟩
    · rintro ⟨crc, src, h | h | h | h, rfl⟩
      · obtain ⟨_, rfl, rfl, rfl⟩ := h; rfl
      all_goals omega
  · rw [if_neg h1]
    by_cases h2 : i < n + 4
    · rw [if_pos h2]
      cases hs : s.source with
      | nil =>
        simp only [sourcePull, hs]
        constructor
        · intro h; cases h
        · rintro ⟨crc, src, h | h | h | h, rfl⟩
          · omega
          · obtain ⟨_, _, h, _⟩ := h; cases h
          all_goals omega
      | cons c rest =>
        simp only [sourcePull, hs]
        constructor
        · intro h
          obtain ⟨rfl, rfl⟩ := Pull.byte.inj h
          exact ⟨_, _, .inr (.inl ⟨by omega, h2, rfl, rfl⟩), rfl⟩
        · rintro ⟨crc, src, h | h | h | h, rfl⟩
          · omega
          · obtain ⟨_, _, h, rfl⟩ := h
            obtain ⟨rfl, rfl⟩ := List.cons.inj h
            rfl
          all_goals omega
    · rw [if_neg h2]
      by_cases h3 : i < n + 8
      · rw [if_pos h3, endByte_eq (i - n - 4) (by omega)]
        constructor
        · intro h
          obtain ⟨rfl, rfl⟩ := Pull.byte.inj h
          exact ⟨_, _, .inr (.inr (.inl ⟨by omega, h3, rfl, rfl, rfl⟩)), rfl⟩
        · rintro ⟨crc, src, h | h | h | h, rfl⟩
          · omega
          · omega
          · obtain ⟨_, _, rfl, rfl, rfl⟩ := h; rfl
          · omega
      · rw [if_neg h3]
        by_cases h4 : i < n + 12
        · rw [if_pos h4]
          constructor
          · intro h
            obtain ⟨rfl, rfl⟩ := Pull.byte.inj h
            exact ⟨_, _, .inr (.inr (.inr ⟨by omega, h4, checksumByte_toNat _ _, rfl, rfl⟩)), rfl⟩
          · rintro ⟨crc, src, h | h | h | h, rfl⟩
            · omega
            · omega
            · omega
            · obtain ⟨_, _, hb, rfl, rfl⟩ := h
              have : b = checksumByte (crcFinal p s.crcAcc) (i - n - 8) :=
                BitVec.eq_of_toNat_eq (hb.trans (checksumByte_toNat _ _).symm)
              rw [this]; rfl
        · rw [if_neg h4]
          constructor
          · intro h; cases h
          · rintro ⟨crc, src, h | h | h | h, rfl⟩ <;> omega

/-- FramerPull holds exactly on an empty source in the payload (R70). -/
theorem framerPull_hold_iff (p : Params) (s : State) :
    framerPull p s = .hold ↔
      4 ≤ s.frIdx.toNat ∧ s.frIdx.toNat < s.payloadLen.toNat + 4 ∧ s.source = [] := by
  unfold framerPull payloadBytes
  dsimp only
  by_cases h1 : s.frIdx.toNat < 4
  · rw [if_pos h1]
    exact ⟨fun h => (by cases h), fun h => by omega⟩
  · rw [if_neg h1]
    by_cases h2 : s.frIdx.toNat < s.payloadLen.toNat + 4
    · rw [if_pos h2]
      cases hs : s.source with
      | nil => simp only [sourcePull, hs]; exact ⟨fun _ => ⟨by omega, h2, trivial⟩, fun _ => trivial⟩
      | cons c rest =>
        simp only [sourcePull, hs]
        exact ⟨fun h => (by cases h), fun h => (by cases h.2.2)⟩
    · rw [if_neg h2]
      by_cases h3 : s.frIdx.toNat < s.payloadLen.toNat + 8
      · rw [if_pos h3]
        exact ⟨fun h => (by cases h), fun h => by omega⟩
      · rw [if_neg h3]
        by_cases h4 : s.frIdx.toNat < s.payloadLen.toNat + 12
        · rw [if_pos h4]
          exact ⟨fun h => (by cases h), fun h => by omega⟩
        · rw [if_neg h4]
          exact ⟨fun h => (by cases h), fun h => by omega⟩

/-- FramerPull answers end-of-stream exactly at FR_IDX ≥ M (R156; log 11). -/
theorem framerPull_end_iff (p : Params) (s : State) :
    framerPull p s = .endOfStream ↔ s.payloadLen.toNat + 12 ≤ s.frIdx.toNat := by
  unfold framerPull payloadBytes
  dsimp only
  by_cases h1 : s.frIdx.toNat < 4
  · rw [if_pos h1]
    exact ⟨fun h => (by cases h), fun h => by omega⟩
  · rw [if_neg h1]
    by_cases h2 : s.frIdx.toNat < s.payloadLen.toNat + 4
    · rw [if_pos h2]
      cases hs : s.source with
      | nil => simp only [sourcePull, hs]; exact ⟨fun h => (by cases h), fun h => by omega⟩
      | cons c rest => simp only [sourcePull, hs]; exact ⟨fun h => (by cases h), fun h => by omega⟩
    · rw [if_neg h2]
      by_cases h3 : s.frIdx.toNat < s.payloadLen.toNat + 8
      · rw [if_pos h3]
        exact ⟨fun h => (by cases h), fun h => by omega⟩
      · rw [if_neg h3]
        by_cases h4 : s.frIdx.toNat < s.payloadLen.toNat + 12
        · rw [if_pos h4]
          exact ⟨fun h => (by cases h), fun h => by omega⟩
        · rw [if_neg h4]
          exact ⟨fun _ => by omega, fun _ => rfl⟩

/-- The refill with no bits left is a pull whose byte is loaded and counted (R185). -/
theorem refill_empty_byte_iff (p : Params) (s t : State) (b : Byte) (h0 : s.frBits.val = 0) :
    refill p s = .byte b t ↔
      ∃ crc source, PullsByte p s b crc source ∧
        t = { s with
              frIdx := s.frIdx + 1, crcAcc := crc, source := source
              frShift := b, frBits := 8, count := s.count + 1 } := by
  unfold refill
  rw [if_pos h0]
  cases hp : framerPull p s with
  | hold =>
    refine ⟨fun h => (by cases h), ?_⟩
    rintro ⟨crc, src, hb, rfl⟩
    have := (framerPull_byte_iff p s _ b).2 ⟨crc, src, hb, rfl⟩
    rw [hp] at this; cases this
  | endOfStream =>
    refine ⟨fun h => (by cases h), ?_⟩
    rintro ⟨crc, src, hb, rfl⟩
    have := (framerPull_byte_iff p s _ b).2 ⟨crc, src, hb, rfl⟩
    rw [hp] at this; cases this
  | byte c u =>
    dsimp only
    constructor
    · intro h
      obtain ⟨rfl, rfl⟩ := Pull.byte.inj h
      obtain ⟨crc, src, hb, rfl⟩ := (framerPull_byte_iff p s u c).1 hp
      exact ⟨crc, src, hb, rfl⟩
    · rintro ⟨crc, src, hb, rfl⟩
      have := (framerPull_byte_iff p s _ b).2 ⟨crc, src, hb, rfl⟩
      rw [hp] at this
      obtain ⟨rfl, rfl⟩ := Pull.byte.inj this
      rfl

/-- The refill with bits left changes nothing. -/
theorem refill_held (p : Params) (s : State) (h : 0 < s.frBits.val) : refill p s = .byte s.frShift s := by
  unfold refill
  rw [if_neg (by omega)]

theorem refill_hold_iff (p : Params) (s : State) :
    refill p s = .hold ↔ s.frBits.val = 0 ∧ framerPull p s = .hold := by
  unfold refill
  split
  · rename_i h
    cases framerPull p s <;> simp [h]
  · rename_i h
    exact ⟨fun hc => (by cases hc), fun hc => absurd hc.1 h⟩

theorem refill_end_iff (p : Params) (s : State) :
    refill p s = .endOfStream ↔ s.frBits.val = 0 ∧ framerPull p s = .endOfStream := by
  unfold refill
  split
  · rename_i h
    cases framerPull p s <;> simp [h]
  · rename_i h
    exact ⟨fun hc => (by cases hc), fun hc => absurd hc.1 h⟩

/-! ### The scanner -/

/-- Everything SCAN_BYTE can do, arm by arm (R237). -/
theorem scanByte_seekStart (p : Params) (c : Byte) (s : State) (n : Fin 4) (h : s.scan = .seekStart n) :
    scanByte p c s =
      if c ≠ startByte n.val then { s with scan := .seekStart 0 }
      else if h3 : n.val < 3 then { s with scan := .seekStart ⟨n.val + 1, by omega⟩ }
      else { s with scan := .seekEnd 0 } := by
  unfold scanByte
  simp only [h]
  by_cases hc : c = startByte n.val
  · by_cases h3 : n.val < 3
    · simp [hc, h3, ssMatch, h]
    · have e : n.val = 3 := by omega
      simp [hc, ssMatchLast, h, e]
  · simp [hc, ssMismatch, h]

theorem scanByte_seekEnd (p : Params) (c : Byte) (s : State) (n : Fin 4) (h : s.scan = .seekEnd n) :
    scanByte p c s =
      if c ≠ endByte n.val then
        { s with
          scan := .seekEnd 0, sink := s.sink ++ (heldBack n.val ++ [c])
          crcAcc := (heldBack n.val ++ [c]).foldl (crcUpdate p) s.crcAcc
          count := s.count + BitVec.ofNat 64 (n.val + 1) }
      else if h3 : n.val < 3 then { s with scan := .seekEnd ⟨n.val + 1, by omega⟩ }
      else { s with scan := .readCksum 0 } := by
  unfold scanByte
  simp only [h]
  by_cases hc : c = endByte n.val
  · by_cases h3 : n.val < 3
    · simp [hc, h3, seMatch, h]
    · have e : n.val = 3 := by omega
      simp [hc, seMatchLast, h, e]
  · simp only [ne_eq, hc, not_false_eq_true, if_true, seMismatch, h]
    rw [emitBytes_eq]
    simp only [emitByte, sinkPush, List.foldl_append, List.foldl_cons, List.foldl_nil, List.append_assoc,
      heldBack_length, BitVec.ofNat_add, BitVec.add_assoc]
    rfl

theorem scanByte_readCksum (p : Params) (c : Byte) (s : State) (n : Fin 5) (h : s.scan = .readCksum n) :
    scanByte p c s =
      if h4 : n.val < 4 then
        { s with stored := (s.stored <<< 8) ||| c.setWidth 32, scan := .readCksum ⟨n.val + 1, by omega⟩ }
      else s := by
  unfold scanByte rcByte
  simp only [h]

/-- What SCAN_BYTE leaves alone: every register but SCAN, STORED, CRC_ACC and COUNT, the buffer and the source; the sink
is only extended (R225, R72). -/
theorem scanByte_frame (p : Params) (c : Byte) (s : State) :
    ∃ (scan : ScanState) (stored crc : Word32) (out : List Byte) (count : Word64),
      scanByte p c s =
        { s with scan := scan, stored := stored, crcAcc := crc, sink := s.sink ++ out, count := count } := by
  have keep : ∀ scan stored, ∃ (scan' : ScanState) (stored' crc : Word32) (out : List Byte) (count : Word64),
      { s with scan := scan, stored := stored } =
        { s with scan := scan', stored := stored', crcAcc := crc, sink := s.sink ++ out, count := count } :=
    fun scan stored => ⟨scan, stored, s.crcAcc, [], s.count, by rw [List.append_nil]⟩
  cases hs : s.scan with
  | seekStart n =>
    rw [scanByte_seekStart _ _ _ n hs]
    split
    · exact keep _ _
    · split
      · exact keep _ _
      · exact keep _ _
  | seekEnd n =>
    rw [scanByte_seekEnd _ _ _ n hs]
    split
    · exact ⟨_, _, _, _, _, rfl⟩
    · split
      · exact keep _ _
      · exact keep _ _
  | readCksum n =>
    rw [scanByte_readCksum _ _ _ n hs]
    split
    · exact keep _ _
    · exact keep s.scan s.stored

end Sys2Proof.Machine
end

