-- ==== Sys2Proof/Laws/Step.lean ====
section
/-! SUPPORT. What each engine step and each turn can do, said once. -/

namespace Sys2Proof.Machine

theorem framerExhausted_iff (s : State) :
    framerExhausted s = true ↔ s.frBits.val = 0 ∧ s.frIdx.toNat = s.payloadLen.toNat + 12 := by
  unfold framerExhausted
  rw [Bool.and_eq_true, decide_eq_true_eq, decide_eq_true_eq]
  rfl

theorem samplesExhausted_iff (s : State) : samplesExhausted s = true ↔ s.cursor.toNat = sampleCount s := by
  simp [samplesExhausted]

theorem exceedsCapacity_iff (s : State) : exceedsCapacity s = true ↔ capacityBytes s < s.payloadLen.toNat + 12 := by
  unfold exceedsCapacity
  rw [decide_eq_true_eq]
  rfl

theorem scanTerminal_iff (s : State) : scanTerminal s = true ↔ s.scan = .readCksum 4 := by simp [scanTerminal]

/-- The state after one embedded bit: EMBED_STEP at CURSOR, then the shift (R186). -/
def embedded (u : State) (a : Nat) (v : Byte) : State :=
  shiftFrame { u with mem := u.mem.write a (setLsb v (nextFrameBit u)) }

/-- The embedding half of the ENCODE loop step, when its refill gives a byte. -/
theorem encodeSample_of_refill {p : Params} {s u : State} {b : Byte} (hr : refill p s = .byte b u) {a : Nat} {v : Byte}
    (h : SampleHolds u u.cursor.toNat a v) : encodeSample p s = .next (embedded u a v) := by
  unfold encodeSample
  rw [hr]
  dsimp only
  rw [(embedStep_ok_iff u _ _ _).2 ⟨a, v, h, rfl⟩]
  rfl

/-- Everything the enabled ENCODE loop step can do when it answers a next state (R186). -/
theorem encodeBody_next {p : Params} {s t : State} (h : encodeBody p s = .next t) :
    (t = encodeComplete p s ∧ (framerExhausted s = true ∨ samplesExhausted s = true)) ∨
    (t = s ∧ refill p s = .hold ∧ framerExhausted s = false ∧ samplesExhausted s = false) ∨
    (∃ b u a v, refill p s = .byte b u ∧ SampleHolds u u.cursor.toNat a v ∧ t = embedded u a v ∧
      framerExhausted s = false ∧ samplesExhausted s = false) := by
  unfold encodeBody at h
  by_cases h1 : framerExhausted s = true
  · rw [if_pos h1] at h
    cases h
    exact .inl ⟨rfl, .inl h1⟩
  · rw [if_neg h1] at h
    by_cases h2 : samplesExhausted s = true
    · rw [if_pos h2] at h
      cases h
      exact .inl ⟨rfl, .inr h2⟩
    · rw [if_neg h2] at h
      rw [Bool.not_eq_true] at h1 h2
      unfold encodeSample at h
      cases hr : refill p s with
      | hold =>
        rw [hr] at h
        cases h
        exact .inr (.inl ⟨rfl, rfl, h1, h2⟩)
      | endOfStream =>
        rw [hr] at h
        cases h
      | byte b u =>
        rw [hr] at h
        dsimp only at h
        cases he : embedStep u.cursor.toNat (nextFrameBit u) u with
        | error f =>
          rw [he] at h
          cases h
        | ok w =>
          rw [he] at h
          cases h
          obtain ⟨a, v, hv, rfl⟩ := (embedStep_ok_iff u w _ _).1 he
          exact .inr (.inr ⟨b, u, a, v, rfl, hv, rfl, h1, h2⟩)

/-- Everything the enabled DECODE loop step can do when it answers a next state (R222). -/
theorem decodeBody_next {p : Params} {s t : State} (h : decodeBody p s = .next t) :
    (t = decodeComplete p s ∧ (scanTerminal s = true ∨ samplesExhausted s = true)) ∨
    (∃ a v, SampleHolds s s.cursor.toNat a v ∧ t = feedScanner p (assembleBit (getLsb v) s) ∧
      scanTerminal s = false ∧ samplesExhausted s = false) := by
  unfold decodeBody at h
  by_cases h1 : scanTerminal s = true
  · rw [if_pos h1] at h
    cases h
    exact .inl ⟨rfl, .inl h1⟩
  · rw [if_neg h1] at h
    by_cases h2 : samplesExhausted s = true
    · rw [if_pos h2] at h
      cases h
      exact .inl ⟨rfl, .inr h2⟩
    · rw [if_neg h2] at h
      rw [Bool.not_eq_true] at h1 h2
      cases hr : readSample s s.cursor.toNat with
      | error f =>
        rw [hr] at h
        cases h
      | ok v =>
        rw [hr] at h
        cases h
        obtain ⟨a, hv⟩ := (readSample_ok_iff s _ v).1 hr
        exact .inr ⟨a, v, hv, rfl, h1, h2⟩

/-- Everything the enabled CHECK step can do when it answers a next state (R134). -/
theorem checkBody_next {p : Params} {s t : State} (h : checkBody p s = .next t) :
    (geometryOk p s = false ∧ t = complete .unsupportedFormat s) ∨
    (geometryOk p s = true ∧ ∃ u : State, u = { s with capacity := BitVec.ofNat 64 (capacityBytes s) } ∧
      ((s.op = .capacity ∧ t = complete .ok u) ∨
        (s.op = .validate ∧ exceedsCapacity s = true ∧ t = complete .capacityExceeded u) ∨
        (s.op = .validate ∧ exceedsCapacity s = false ∧ t = complete .ok u) ∨
        (s.op = .encode ∧ exceedsCapacity s = true ∧ t = complete .capacityExceeded u) ∨
        (s.op = .encode ∧ exceedsCapacity s = false ∧ t = { u with stage := .run }) ∨
        (s.op = .decode ∧ t = { u with stage := .run }))) := by
  unfold checkBody at h
  by_cases hg : geometryOk p s = true
  · rw [if_pos hg] at h
    refine .inr ⟨hg, _, rfl, ?_⟩
    cases ho : s.op <;> rw [ho] at h <;> dsimp only at h
    · cases h
    · cases h; exact .inl ⟨rfl, rfl⟩
    · cases he : exceedsCapacity s <;> rw [he] at h <;> cases h
      · exact .inr (.inr (.inl ⟨rfl, rfl, rfl⟩))
      · exact .inr (.inl ⟨rfl, rfl, rfl⟩)
    · cases he : exceedsCapacity s <;> rw [he] at h <;> cases h
      · exact .inr (.inr (.inr (.inr (.inl ⟨rfl, rfl, rfl⟩))))
      · exact .inr (.inr (.inr (.inl ⟨rfl, rfl, rfl⟩)))
    · cases h; exact .inr (.inr (.inr (.inr (.inr ⟨rfl, rfl⟩))))
  · rw [if_neg hg] at h
    cases h
    exact .inl ⟨by simpa using hg, rfl⟩

/-! ### The three engine instructions, enabled and not -/

theorem exec_check_enabled {s : State} (h : CheckEnabled s) : exec .check s = checkBody s.params s := if_pos h

theorem exec_check_disabled {s : State} (h : ¬ CheckEnabled s) : exec .check s = .next s := if_neg h

theorem exec_encodeStep_enabled {s : State} (h : EncodeEnabled s) : exec .encodeStep s = encodeBody s.params s := if_pos h

theorem exec_encodeStep_disabled {s : State} (h : ¬ EncodeEnabled s) : exec .encodeStep s = .next s := if_neg h

theorem exec_decodeStep_enabled {s : State} (h : DecodeEnabled s) : exec .decodeStep s = decodeBody s.params s := if_pos h

theorem exec_decodeStep_disabled {s : State} (h : ¬ DecodeEnabled s) : exec .decodeStep s = .next s := if_neg h

/-! ### The turns -/

theorem step_engine {s : State} {rest : List Turn} (h : s.turns = .engine :: rest ∨ (s.turns = [] ∧ rest = [])) :
    step s = match engineInstr { s with turns := rest } with
      | some i => exec i { s with turns := rest }
      | none => .next { s with turns := rest } := by
  have hs : s.turns = [] → { s with turns := [] } = s := fun ht => by cases s; simp_all
  unfold step nextMove
  rcases h with h | ⟨h, rfl⟩
  · rw [h]
    dsimp only [engineMove]
    cases engineInstr { s with turns := rest } <;> rfl
  · rw [h, hs h]
    dsimp only [engineMove]
    cases engineInstr s <;> rfl

theorem step_host {s : State} {a : HostAction} {rest : List Turn} (h : s.turns = .host a :: rest) :
    step s = match hostMove a { s with turns := rest } with
      | .run i t => exec i t
      | .done o => o := by
  cases s
  dsimp only at h
  subst h
  rfl

theorem engineInstr_idle {s : State} (h : s.busy = false) : engineInstr s = none := by simp [engineInstr, h]

theorem engineInstr_check {s : State} (h : CheckEnabled s) : engineInstr s = some .check := by
  simp [engineInstr, h.1, h.2]

theorem engineInstr_encode {s : State} (h : EncodeEnabled s) : engineInstr s = some .encodeStep := by
  simp [engineInstr, h.1, h.2.1, h.2.2]

theorem engineInstr_decode {s : State} (h : DecodeEnabled s) : engineInstr s = some .decodeStep := by
  simp [engineInstr, h.1, h.2.1, h.2.2]

/-- Which instructions a step can run: the engine step STATUS selects, a command word, or the reset input. -/
theorem engineInstr_some {s : State} {i : Instr} (h : engineInstr s = some i) :
    (i = .check ∧ CheckEnabled s) ∨ (i = .encodeStep ∧ EncodeEnabled s) ∨ (i = .decodeStep ∧ DecodeEnabled s) := by
  unfold engineInstr at h
  cases hb : s.busy <;> rw [hb] at h
  · cases h
  · cases hst : s.stage <;> cases ho : s.op <;> simp only [hst, ho, if_true, Option.some.injEq, reduceCtorEq] at h <;>
      subst h <;> simp [CheckEnabled, EncodeEnabled, DecodeEnabled, hb, hst, ho]

/-- Everything a command word can do (R92, R130, R132, R133). -/
theorem exec_decodeCommand (w : Word32) (s : State) :
    ∃ t, exec (decodeCommand w) s = .next t ∧
      (t = s ∨ (∃ o, o ≠ .none ∧ s.busy = false ∧ t = beginCommand s.params o s) ∨
        (s.busy = false ∧ t = { s with done := true, result := .illegalCommand })) := by
  have hstart : ∀ o, o ≠ Opcode.none → (startCommand s.params o s = s ∨
      (∃ o', o' ≠ Opcode.none ∧ s.busy = false ∧ startCommand s.params o s = beginCommand s.params o' s) ∨
      (s.busy = false ∧ startCommand s.params o s = { s with done := true, result := .illegalCommand })) := by
    intro o ho
    unfold startCommand
    cases hb : s.busy
    · exact .inr (.inl ⟨o, ho, rfl, rfl⟩)
    · exact .inl rfl
  have hrefuse : refuseCommand s = s ∨ (∃ o', o' ≠ Opcode.none ∧ s.busy = false ∧ refuseCommand s = beginCommand s.params o' s) ∨
      (s.busy = false ∧ refuseCommand s = { s with done := true, result := .illegalCommand }) := by
    unfold refuseCommand
    cases hb : s.busy
    · exact .inr (.inr ⟨rfl, rfl⟩)
    · exact .inl rfl
  unfold decodeCommand
  split
  · split
    · exact ⟨s, rfl, .inl rfl⟩
    · exact ⟨_, rfl, hstart .capacity (by decide)⟩
    · exact ⟨_, rfl, hstart .validate (by decide)⟩
    · exact ⟨_, rfl, hstart .encode (by decide)⟩
    · exact ⟨_, rfl, hstart .decode (by decide)⟩
    all_goals exact ⟨_, rfl, hrefuse⟩
  · exact ⟨_, rfl, hrefuse⟩

end Sys2Proof.Machine
end

