-- ==== Sys2Proof/Laws/Frame.lean ====
section
/-! SUPPORT. What the instructions leave alone: the frames of the refill, and of every instruction over the buffer
and over the parameters. -/

namespace Sys2Proof.Machine

/-- A refill changes the framer's registers, CRC_ACC, COUNT and the source only (R185, R157). -/
theorem refill_frame {p : Params} {s u : State} {b : Byte} (h : refill p s = .byte b u) :
    ∃ i c src sh bi co,
      u = { s with frIdx := i, crcAcc := c, source := src, frShift := sh, frBits := bi, count := co } := by
  by_cases h0 : s.frBits.val = 0
  · obtain ⟨crc, src, _, rfl⟩ := (refill_empty_byte_iff p s u b h0).1 h
    exact ⟨_, _, _, _, _, _, rfl⟩
  · rw [refill_held p s (by omega)] at h
    obtain ⟨_, rfl⟩ := Pull.byte.inj h
    exact ⟨s.frIdx, s.crcAcc, s.source, s.frShift, s.frBits, s.count, rfl⟩

/-- Everything a CHECK step can do to a state, whatever it decides (R134). -/
theorem exec_check_frame {s t : State} (h : exec .check s = .next t) :
    ∃ cap busy done stage result,
      t = { s with capacity := cap, busy := busy, done := done, stage := stage, result := result } := by
  by_cases hc : CheckEnabled s
  · rw [exec_check_enabled hc] at h
    rcases checkBody_next h with ⟨_, rfl⟩ | ⟨_, u, rfl, h | h | h | h | h | h⟩
    · exact ⟨_, _, _, _, _, rfl⟩
    · exact ⟨_, _, _, _, _, h.2⟩
    · exact ⟨_, _, _, _, _, h.2.2⟩
    · exact ⟨_, _, _, _, _, h.2.2⟩
    · exact ⟨_, _, _, _, _, h.2.2⟩
    · exact ⟨_, _, _, _, _, h.2.2⟩
    · exact ⟨_, _, _, _, _, h.2⟩
  · rw [exec_check_disabled hc] at h
    cases h
    exact ⟨s.capacity, s.busy, s.done, s.stage, s.result, rfl⟩

/-- A DECODE loop step that feeds the scanner changes the assembly, the scanner's registers, CURSOR, CRC_ACC, COUNT and
the sink only, and the sink is only extended (R222, R225). -/
theorem feedScanner_frame (p : Params) (s : State) :
    ∃ cnt scan stored crc out co,
      feedScanner p s =
        { s with asCnt := cnt, scan := scan, stored := stored, crcAcc := crc, sink := s.sink ++ out, count := co } := by
  unfold feedScanner
  split
  · obtain ⟨_, _, _, _, _, e⟩ := scanByte_frame p s.asByte { s with asCnt := 0 }
    rw [e]
    exact ⟨_, _, _, _, _, _, rfl⟩
  · exact ⟨_, s.scan, s.stored, s.crcAcc, [], s.count, by rw [List.append_nil]⟩

/-- What an instruction can do to the buffer: nothing, or the least-significant bit of one sample (R64, R190). -/
theorem exec_mem (i : Instr) (s t : State) (h : exec i s = .next t) :
    t.mem = s.mem ∨ ∃ k a v bit, SampleHolds s k a v ∧ t.mem = s.mem.write a (setLsb v bit) := by
  cases i
  case check =>
    obtain ⟨_, _, _, _, _, rfl⟩ := exec_check_frame h
    exact .inl rfl
  case encodeStep =>
    by_cases hc : EncodeEnabled s
    · rw [exec_encodeStep_enabled hc] at h
      rcases encodeBody_next h with ⟨rfl, _⟩ | ⟨rfl, _⟩ | ⟨b, u, a, v, hr, hh, rfl, _⟩
      · exact .inl rfl
      · exact .inl rfl
      · obtain ⟨_, _, _, _, _, _, rfl⟩ := refill_frame hr
        exact .inr ⟨_, a, v, _, hh, rfl⟩
    · rw [exec_encodeStep_disabled hc] at h
      cases h
      exact .inl rfl
  case decodeStep =>
    left
    by_cases hc : DecodeEnabled s
    · rw [exec_decodeStep_enabled hc] at h
      rcases decodeBody_next h with ⟨rfl, _⟩ | ⟨a, v, hh, rfl, _⟩
      · rfl
      · obtain ⟨_, _, _, _, _, _, e⟩ := feedScanner_frame s.params (assembleBit (getLsb v) s)
        rw [e]
        rfl
    · rw [exec_decodeStep_disabled hc] at h
      cases h
      rfl
  case embedStep k bit =>
    simp only [exec, execEmbedStep] at h
    cases he : embedStep k.toNat bit s with
    | error f => rw [he] at h; cases h
    | ok u =>
      rw [he] at h
      cases h
      obtain ⟨a, v, hh, rfl⟩ := (embedStep_ok_iff _ _ _ _).1 he
      exact .inr ⟨_, a, v, bit, hh, rfl⟩
  case framerPull =>
    left
    simp only [exec, execFramerPull] at h
    cases hp : framerPull s.params s with
    | hold => rw [hp] at h; cases h; rfl
    | endOfStream => rw [hp] at h; cases h; rfl
    | byte b u =>
      rw [hp] at h
      cases h
      obtain ⟨_, _, _, rfl⟩ := (framerPull_byte_iff _ _ _ _).1 hp
      rfl
  case scanByte c =>
    cases h
    obtain ⟨_, _, _, _, _, e⟩ := scanByte_frame s.params c s
    rw [e]
    exact .inl rfl
  case seMismatch c =>
    left
    simp only [exec, execSeMismatch, seMismatch] at h
    cases h
    split
    · rfl
    · split
      · rw [emitBytes_eq]; rfl
      · rfl
    · rfl
  case encodeTruncate =>
    left
    simp only [exec, execEncodeTruncate] at h
    split at h <;> cases h <;> rfl
  all_goals
    left
    cases h
    first
      | rfl
      | (simp only [startCommand, refuseCommand, acceptWord, ssMatch, ssMatchLast, ssMismatch, seMatch, seMatchLast,
          rcByte]
         repeat' split
         all_goals rfl)

/-- No instruction writes the parameters (R6, R20). -/
theorem exec_params (i : Instr) (s t : State) (h : exec i s = .next t) : t.params = s.params := by
  cases i
  case check =>
    obtain ⟨_, _, _, _, _, rfl⟩ := exec_check_frame h
    rfl
  case encodeStep =>
    by_cases hc : EncodeEnabled s
    · rw [exec_encodeStep_enabled hc] at h
      rcases encodeBody_next h with ⟨rfl, _⟩ | ⟨rfl, _⟩ | ⟨b, u, a, v, hr, hh, rfl, _⟩
      · rfl
      · rfl
      · obtain ⟨_, _, _, _, _, _, rfl⟩ := refill_frame hr; rfl
    · rw [exec_encodeStep_disabled hc] at h; cases h; rfl
  case decodeStep =>
    by_cases hc : DecodeEnabled s
    · rw [exec_decodeStep_enabled hc] at h
      rcases decodeBody_next h with ⟨rfl, _⟩ | ⟨a, v, hh, rfl, _⟩
      · rfl
      · obtain ⟨_, _, _, _, _, _, e⟩ := feedScanner_frame s.params (assembleBit (getLsb v) s)
        rw [e]; rfl
    · rw [exec_decodeStep_disabled hc] at h; cases h; rfl
  case embedStep k bit =>
    simp only [exec, execEmbedStep] at h
    cases he : embedStep k.toNat bit s with
    | error f => rw [he] at h; cases h
    | ok u =>
      rw [he] at h; cases h
      obtain ⟨a, v, hh, rfl⟩ := (embedStep_ok_iff _ _ _ _).1 he
      rfl
  case framerPull =>
    simp only [exec, execFramerPull] at h
    cases hp : framerPull s.params s with
    | hold => rw [hp] at h; cases h; rfl
    | endOfStream => rw [hp] at h; cases h; rfl
    | byte b u =>
      rw [hp] at h; cases h
      obtain ⟨_, _, _, rfl⟩ := (framerPull_byte_iff _ _ _ _).1 hp
      rfl
  case scanByte c =>
    cases h
    obtain ⟨_, _, _, _, _, e⟩ := scanByte_frame s.params c s
    rw [e]
  case seMismatch c =>
    simp only [exec, execSeMismatch, seMismatch] at h
    cases h
    split
    · rfl
    · split
      · rw [emitBytes_eq]; rfl
      · rfl
    · rfl
  case encodeTruncate =>
    simp only [exec, execEncodeTruncate] at h
    split at h <;> cases h <;> rfl
  all_goals
    cases h
    first
      | rfl
      | (simp only [startCommand, refuseCommand, acceptWord, ssMatch, ssMatchLast, ssMismatch, seMatch, seMatchLast,
          rcByte]
         repeat' split
         all_goals rfl)

end Sys2Proof.Machine
end

