-- ==== Sys2Proof/Laws/PerInstr.lean ====
section
/-! SUPPORT. One statement for every instruction, case by case: an instruction that a host can give on the register port
is a write to CMD, its command word is DATA[31:0], and an instruction without a port transaction has no command word
(30_encoding.md R90, R91). -/

namespace Sys2Proof.Laws.PortEncoding

/-- The port transaction of an instruction is a write to CMD whose DATA[31:0] is its command word. -/
def Statement (i : Instr) : Prop :=
  (∀ t, encodePort i = some t → t.we = true ∧ t.reg = cmdReg ∧ ∀ w, encode i = some w → commandWord t.data = w) ∧
    (encodePort i = none → encode i = none)

theorem of_word {i : Instr} {w : Word32} (h : encode i = some w)
    (hp : encodePort i = some { we := true, reg := cmdReg, data := w.setWidth 64 }) : Statement i := by
  refine ⟨fun t ht => ?_, fun hn => ?_⟩
  · rw [hp] at ht
    cases ht
    refine ⟨rfl, rfl, fun v hv => ?_⟩
    rw [h] at hv
    cases hv
    exact BitVec.eq_of_toNat_eq (by simp [commandWord])
  · rw [hp] at hn
    cases hn

theorem of_none {i : Instr} (h : encode i = none) (hp : encodePort i = none) : Statement i :=
  ⟨fun t ht => (by rw [hp] at ht; cases ht), fun _ => h⟩

theorem nop : Statement .nop := of_word rfl rfl
theorem capacity : Statement .capacity := of_word rfl rfl
theorem validate : Statement .validate := of_word rfl rfl
theorem encode : Statement .encode := of_word rfl rfl
theorem decode : Statement .decode := of_word rfl rfl
theorem reserved5 : Statement .reserved5 := of_word rfl rfl
theorem reserved67 (low : BitVec 1) : Statement (.reserved67 low) := of_word rfl rfl
theorem reserved8F (low : BitVec 3) : Statement (.reserved8F low) := of_word rfl rfl
theorem reservedHigh (rsvd : BitVec 28) (opcode : BitVec 4) : Statement (.reservedHigh rsvd opcode) := of_word rfl rfl
theorem accept (data : Word64) : Statement (.accept data) := 
  ⟨fun t ht => (by cases ht; exact ⟨rfl, rfl, fun w hw => by cases hw⟩), fun _ => rfl⟩
theorem check : Statement .check := of_none rfl rfl
theorem geomOk : Statement .geomOk := of_none rfl rfl
theorem encodeStep : Statement .encodeStep := of_none rfl rfl
theorem encodeComplete : Statement .encodeComplete := of_none rfl rfl
theorem encodeTruncate : Statement .encodeTruncate := of_none rfl rfl
theorem framerPull : Statement .framerPull := of_none rfl rfl
theorem embedStep (k : Word64) (bit : BitVec 1) : Statement (.embedStep k bit) := of_none rfl rfl
theorem setLsb (sample : Byte) (bit : BitVec 1) : Statement (.setLsb sample bit) := of_none rfl rfl
theorem getLsb (sample : Byte) : Statement (.getLsb sample) := of_none rfl rfl
theorem decodeStep : Statement .decodeStep := of_none rfl rfl
theorem decodeComplete : Statement .decodeComplete := of_none rfl rfl
theorem scanByte (c : Byte) : Statement (.scanByte c) := of_none rfl rfl
theorem ssMatch (c : Byte) : Statement (.ssMatch c) := of_none rfl rfl
theorem ssMatchLast (c : Byte) : Statement (.ssMatchLast c) := of_none rfl rfl
theorem ssMismatch (c : Byte) : Statement (.ssMismatch c) := of_none rfl rfl
theorem seMatch (c : Byte) : Statement (.seMatch c) := of_none rfl rfl
theorem seMatchLast (c : Byte) : Statement (.seMatchLast c) := of_none rfl rfl
theorem seMismatch (c : Byte) : Statement (.seMismatch c) := of_none rfl rfl
theorem rcByte (c : Byte) : Statement (.rcByte c) := of_none rfl rfl
theorem emit (b : Byte) : Statement (.emit b) := of_none rfl rfl
theorem crcUpdate (c : Word32) (b : Byte) : Statement (.crcUpdate c b) := of_none rfl rfl
theorem reset : Statement .reset := of_none rfl rfl

end Sys2Proof.Laws.PortEncoding
end

