-- ==== Sys2Proof/Tests/Slice0.lean ====
section
/-! SUPPORT. The model's own tests: expected results are the spec's (95_test_vectors.md and the examples of the rules),
each one step on a small state; and for every statement of Certificates/Slice0/Obligations.lean that has hypotheses, a
concrete state that meets them. -/

namespace Sys2Proof.Machine.Tests

/-! ### Helpers -/

/-- The next state, if there is one. -/
def nextOf (o : Host.Outcome State Fault Refusal) : Option State :=
  match o with
  | .next s => some s
  | .fault _ => none
  | .refused _ => none

/-- The fault, if there is one. -/
def faultOf (o : Host.Outcome State Fault Refusal) : Option Fault :=
  match o with
  | .next _ => none
  | .fault f => some f
  | .refused _ => none

/-- The refusal, if there is one. -/
def refusalOf (o : Host.Outcome State Fault Refusal) : Option Refusal :=
  match o with
  | .next _ => none
  | .fault _ => none
  | .refused r => some r

/-- An idle block with this geometry and payload length. -/
def geom (w h c d : Word32) (n : Word64) : State :=
  { State.reset with width := w, height := h, channels := c, depth := d, payloadLen := n }

/-- A buffer of `size` bytes 0x00 but for the cells. -/
def buffer (size : Nat) (cells : List Host.Cell) : Memory := { size := size, cells := cells }

/-- A block whose CHECK step is next. -/
def checking (op : Opcode) (s : State) : State := { s with busy := true, op := op, stage := .check }

/-- A block whose loop step is next. -/
def running (op : Opcode) (s : State) : State := { s with busy := true, op := op, stage := .run }

/-- The example geometry 16 x 7 x 1 x 8 (S 112, CAP 14) with N = 2. -/
def hi : State := { geom 16 7 1 8 2 with mem := buffer 112 [], source := [0x48, 0x69] }

/-- A 16-bit geometry of S = 104 samples (CAP 13) with N = 1, bytes 6 and 7 holding `12 34`. -/
def deep : State := { geom 13 8 1 16 1 with mem := buffer 208 [(6, 0x12), (7, 0x34)], source := [0x41] }

/-- An ENCODE in STAGE RUN whose source ran out before its second payload byte (V-ENC-6). -/
def stalled : State :=
  { running .encode hi with capacity := 14, cursor := 40, frIdx := 5, count := 5, source := [], crcAcc := 0x128E9DCF }

/-- An ENCODE about to embed the last bit of a byte it holds, at the last sample. -/
def holding : State := { running .encode hi with frIdx := 14, frBits := 1, frShift := 0x80, cursor := 111 }

/-- An ENCODE about to pull its first payload byte. -/
def refilling : State := { running .encode hi with frIdx := 4, cursor := 32, count := 4 }

/-- A DECODE about to read its last sample. -/
def lastSample : State := { running .decode hi with capacity := 14, cursor := 111, asCnt := 7 }

/-- The example with one byte too many in the source. -/
def spare : State := { hi with source := [0x48, 0x69] ++ [0x7A] }

/-- A BUSY block to read registers of: STAGE RUN, OP 3, SCAN SE(3). -/
def reading : State :=
  { running .encode hi with cursor := 9, crcAcc := 0x45621986, scan := .seekEnd 3, portOut := 0xFFFF }

/-- What the step of a host read of the register puts on the port. -/
def readOf (reg : BitVec 8) : Option Word64 :=
  (nextOf (step { reading with turns := [.host (.read reg)] })).map (·.portOut)

/-- The example on a block built with other parameters than the defaults (R6). -/
def otherParams : State :=
  { hi with
    params := { crcPoly := 0x1EDC6F41, crcInit := 0xFFFFFFFF, crcXorout := 0x0F0F0F0F, maxBufBytes := 111 } }

/-- The example at framed byte i. -/
def pulling (i : Word64) (crc : Word32) : State := { hi with frIdx := i, crcAcc := crc }

/-! ### WellFormed -/

theorem test_wellformed_refuses_zero_rsvd : (Instr.reservedHigh 0 3).wellFormed = false := by decide

theorem test_wellformed_takes_high_words : (Instr.reservedHigh 1 0).wellFormed = true := by decide

/-! ### Decoding: words written bit by bit from R91's fields, RSVD (bits 31:4) then OPCODE (bits 3:0) -/

theorem test_decode_nop : decodeCommand 0b00000000000000000000000000000000 = .nop := by decide

theorem test_decode_capacity : decodeCommand 0b00000000000000000000000000000001 = .capacity := by decide

theorem test_decode_validate : decodeCommand 0b00000000000000000000000000000010 = .validate := by decide

theorem test_decode_encode : decodeCommand 0b00000000000000000000000000000011 = .encode := by decide

theorem test_decode_decode : decodeCommand 0b00000000000000000000000000000100 = .decode := by decide

theorem test_decode_reserved5 : decodeCommand 0b00000000000000000000000000000101 = .reserved5 := by decide

theorem test_decode_reserved6 : decodeCommand 0b00000000000000000000000000000110 = .reserved67 0 := by decide

theorem test_decode_reserved7 : decodeCommand 0b00000000000000000000000000000111 = .reserved67 1 := by decide

theorem test_decode_reserved8 : decodeCommand 0b00000000000000000000000000001000 = .reserved8F 0 := by decide

theorem test_decode_reservedF : decodeCommand 0b00000000000000000000000000001111 = .reserved8F 7 := by decide

theorem test_decode_reserved_high : decodeCommand 0b00000000000000000000000000010000 = .reservedHigh 1 0 := by decide

theorem test_decode_reserved_top : decodeCommand 0b10000000000000000000000000000011 = .reservedHigh 0x8000000 3 := by decide

/-- R90, R130: the transaction (1, 0x08, DATA) is ACCEPT; a write to another register and a read are not. -/
theorem test_decode_port : decodePort { we := true, reg := 0x08, data := 3 } = some (.accept 3) ∧
    decodePort { we := true, reg := 0x09, data := 3 } = none ∧ decodePort { we := false, reg := 0x08, data := 3 } = none := by
  decide

theorem test_table_word : decodeTableWord 32 0x00000003 = some .encode ∧ decodeTableWord 65 3 = none := by decide

/-! ### Command words, on the step that takes them from reset -/

/-- STATUS after one step of the host's write of the word, from reset. -/
def statusAfter (w : Nat) : Option Word32 := (nextOf (step (State.reset.withFetchWord 32 w))).map statusWord

/-- V-CMD-1, and R32's OP for the other commands. -/
theorem test_commands_start :
    statusAfter 1 = some 0x101 ∧ statusAfter 2 = some 0x201 ∧ statusAfter 3 = some 0x301 ∧ statusAfter 4 = some 0x401 := by
  decide

/-- V-CMD-2, V-CMD-3, V-CMD-4, and R132's NOP. -/
theorem test_illegal_words : statusAfter 5 = some 0x062 ∧ statusAfter 7 = some 0x062 ∧ statusAfter 0xF = some 0x062 ∧
    statusAfter 0x10 = some 0x062 ∧ statusAfter 0xFFFFFFFF = some 0x062 ∧ statusAfter 0 = some 0 := by
  decide

/-- V-CMD-5: DATA[63:32] is ignored. -/
theorem test_accept_ignores_high_half :
    (nextOf (exec (.accept 0x100000003) State.reset)).map statusWord = some 0x301 := by decide

/-- V-CMD-7, V-CMD-11: ignored while BUSY; RESULT is kept at acceptance. -/
theorem test_accept_busy : (nextOf (exec (.accept 7) (running .encode hi))).map statusWord = some 0xB01 ∧
    (nextOf (exec (.accept 2) { hi with result := .endNotFound, done := true })).map statusWord = some 0x241 := by
  decide

/-! ### CHECK and the capacity model -/

/-- V-CAP-1, V-CAP-10, V-CAP-11. -/
theorem test_check_capacity :
    (nextOf (exec .check (checking .capacity (geom 10 10 3 8 0)))).map (fun t => (t.capacity, statusWord t)) = some (37, 0x102) ∧
    (nextOf (exec .check (checking .capacity (geom 15 1 1 8 0)))).map (·.capacity) = some 1 ∧
    (nextOf (exec .check (checking .capacity (geom 10 10 3 16 0)))).map (·.capacity) = some 37 := by
  decide

/-- V-CAP-2, V-CAP-3, V-CAP-4, V-CAP-6. -/
theorem test_check_capacity_test :
    (nextOf (exec .check (checking .validate (geom 16 7 1 8 2)))).map statusWord = some 0x202 ∧
    (nextOf (exec .check (checking .validate (geom 16 7 1 8 3)))).map statusWord = some 0x212 ∧
    (nextOf (exec .check (checking .encode (geom 16 7 1 8 3)))).map statusWord = some 0x312 ∧
    (nextOf (exec .check (checking .encode (geom 16 7 5 8 1000)))).map statusWord = some 0x322 := by
  decide

/-- R131: V-CAP-7's DEPTH 12, and V-CAP-8's zero width. -/
theorem test_geom_ok :
    (nextOf (exec .geomOk (geom 16 7 1 12 0))).map (·.primOut) = some (.flag false) ∧
    (nextOf (exec .geomOk (geom 0 5 3 8 0))).map (·.primOut) = some (.flag true) := by
  decide

/-! ### Checksum and framer -/

/-- V-CRC-1, V-CRC-4. -/
theorem test_crc_update :
    (nextOf (exec (.crcUpdate 0x00000000 0x01) State.reset)).map (·.primOut) = some (.word 0x04C11DB7) ∧
    (nextOf (exec (.crcUpdate 0xFFFFFFFF 0x00) State.reset)).map (·.primOut) = some (.word 0x4E08BFB4) := by
  decide

/-- V-CRC-7, V-CRC-10, V-CRC-5 and V-CRC-6. -/
theorem test_crc32 : crc32 Config.defaults [] = 0xFFFFFFFF ∧ crc32 Config.defaults [0x48, 0x69] = 0xBA9DE679 := by
  have h5 : crcUpdate Config.defaults Config.defaults.crcInit 0x48 = 0x128E9DCF := by decide
  have h6 : crcUpdate Config.defaults 0x128E9DCF 0x69 = 0x45621986 := by decide
  refine ⟨by decide, ?_⟩
  unfold crc32 crcFold
  rw [List.foldl_cons, h5, List.foldl_cons, h6]
  decide

/-- V-FR-1 at i = 3, 4, 6 and 10. -/
theorem test_framer_pull :
    (nextOf (exec .framerPull { hi with frIdx := 3 })).map (·.primOut) = some (.byte 0xFF) ∧
    (nextOf (exec .framerPull { hi with frIdx := 4 })).map (fun t => (t.primOut, t.crcAcc, t.source)) =
      some (.byte 0x48, 0x128E9DCF, [0x69]) ∧
    (nextOf (exec .framerPull { hi with frIdx := 6 })).map (·.primOut) = some (.byte 0x0E) ∧
    (nextOf (exec .framerPull { hi with frIdx := 10, crcAcc := 0x45621986 })).map (·.primOut) = some (.byte 0xBA) := by
  decide

/-- V-FR-5: the pull holds. -/
theorem test_framer_hold : nextOf (exec .framerPull { hi with frIdx := 5, source := [] }) =
    some { hi with frIdx := 5, source := [] } := by decide

/-! ### Codec and ENCODE -/

/-- V-LSB-1, V-LSB-2. -/
theorem test_set_lsb :
    (nextOf (exec (.setLsb 0x80 1) State.reset)).map (·.primOut) = some (.byte 0x81) ∧
    (nextOf (exec (.setLsb 0xFF 0) State.reset)).map (·.primOut) = some (.byte 0xFE) := by
  decide

/-- V-LSB-5. -/
theorem test_get_lsb :
    (nextOf (exec (.getLsb 0x81) State.reset)).map (·.primOut) = some (.bit 1) ∧
    (nextOf (exec (.getLsb 0xFE) State.reset)).map (·.primOut) = some (.bit 0) := by
  decide

/-- V-LSB-7: DEPTH 16. -/
theorem test_embed_deep : (nextOf (exec (.embedStep 3 1) deep)).map (·.mem) =
    some (buffer 208 [(6, 0x12), (7, 0x35)]) := by decide

/-- V-LSB-8: DEPTH 8. -/
theorem test_embed : (nextOf (exec (.embedStep 3 0) { hi with mem := buffer 112 [(3, 0xA7)] })).map (·.mem) =
    some (buffer 112 [(3, 0xA6)]) := by decide

/-- V-ENC-2, step 34: framed byte 4 = 0x48 is pulled and its bit 7 embedded at sample 32. -/
theorem test_encode_step_refills :
    (nextOf (exec .encodeStep
      { running .encode hi with frIdx := 4, cursor := 32, count := 4, mem := buffer 112 [(32, 0x81)] })).map
      (fun t => (t.cursor, t.frIdx, frStateWord t, t.count, t.crcAcc, t.mem)) =
    some (33, 5, 0x790, 5, 0x128E9DCF, buffer 112 [(32, 0x80)]) := by decide

/-- V-ENC-2, step 3: 0x71E at CURSOR 1 embeds a 0, then 0x63C. -/
theorem test_encode_step_shifts :
    (nextOf (exec .encodeStep { running .encode hi with frIdx := 1, frBits := 7, frShift := 0x1E, cursor := 1 })).map
      (fun t => (t.cursor, frStateWord t)) = some (2, 0x63C) := by decide

/-- V-ENC-2, step 114: the completion. -/
theorem test_encode_completes :
    (nextOf (exec .encodeStep
      { running .encode hi with frIdx := 14, cursor := 112, count := 14, crcAcc := 0x45621986 })).map
      (fun t => (statusWord t, t.cksum)) = some (0x302, 0xBA9DE679) := by decide

theorem test_encode_complete : (nextOf (exec .encodeComplete { running .encode hi with crcAcc := 0x45621986 })).map
    (fun t => (statusWord t, t.cksum)) = some (0x302, 0xBA9DE679) := by decide

/-- R189: CURSOR = S before exhaustion completes OK. -/
theorem test_encode_truncate : (nextOf (exec .encodeTruncate { running .encode hi with cursor := 112 })).map statusWord =
    some 0x302 := by decide

/-! ### Scanner and DECODE -/

/-- The scanner's registers after SCAN_BYTE. -/
def scanned (scan : ScanState) (c : Byte) : Option (Word32 × List Byte × Word64) :=
  (nextOf (exec (.scanByte c) { hi with scan := scan })).map fun t => (scanWord t, t.sink, t.count)

/-- V-SC-1, V-SC-2, V-SC-3. -/
theorem test_scan_seek_start : scanned (.seekStart 0) 0x0F = some (0x10, [], 0) ∧
    scanned (.seekStart 3) 0xFF = some (0x01, [], 0) ∧ scanned (.seekStart 1) 0x0F = some (0x00, [], 0) := by decide

/-- V-SC-5, V-SC-7, V-SC-8, V-SC-9. -/
theorem test_scan_seek_end : scanned (.seekEnd 0) 0x0E = some (0x11, [], 0) ∧
    scanned (.seekEnd 2) 0x00 = some (0x01, [0x0E, 0x1E, 0x00], 3) ∧ scanned (.seekEnd 3) 0xEE = some (0x02, [], 0) ∧
    scanned (.seekEnd 3) 0x0E = some (0x01, [0x0E, 0x1E, 0x2E, 0x0E], 4) := by decide

theorem test_ss_match : (nextOf (exec (.ssMatch 0x2F) { hi with scan := .seekStart 2 })).map scanWord = some 0x30 := by decide

theorem test_ss_match_last : (nextOf (exec (.ssMatchLast 0xFF) { hi with scan := .seekStart 3 })).map scanWord =
    some 0x01 := by decide

/-- V-SC-4. -/
theorem test_ss_mismatch : (nextOf (exec (.ssMismatch 0x00) { hi with scan := .seekStart 2 })).map scanWord =
    some 0x00 := by decide

theorem test_se_match : (nextOf (exec (.seMatch 0x2E) { hi with scan := .seekEnd 2 })).map scanWord = some 0x31 := by decide

theorem test_se_match_last : (nextOf (exec (.seMatchLast 0xEE) { hi with scan := .seekEnd 3 })).map scanWord =
    some 0x02 := by decide

/-- V-SC-9a. -/
theorem test_se_mismatch : (nextOf (exec (.seMismatch 0x0E) { hi with scan := .seekEnd 1 })).map
    (fun t => (scanWord t, t.sink)) = some (0x01, [0x0E, 0x0E]) := by decide

/-- V-SC-9c. -/
theorem test_rc_byte : (nextOf (exec (.rcByte 0x79) { hi with scan := .readCksum 3, stored := 0x00BA9DE6 })).map
    (fun t => (scanWord t, t.stored)) = some (0x42, 0xBA9DE679) := by decide

/-- V-CRC-6 as an EMIT. -/
theorem test_emit : (nextOf (exec (.emit 0x69) { hi with crcAcc := 0x128E9DCF, sink := [0x48], count := 1 })).map
    (fun t => (t.crcAcc, t.sink, t.count)) = some (0x45621986, [0x48, 0x69], 2) := by decide

/-- R222's example: the 8th loop step assembles 0x0F and moves SS(0) to SS(1). -/
theorem test_decode_step_feeds :
    (nextOf (exec .decodeStep
      { running .decode hi with cursor := 7, asCnt := 7, asByte := 0x07, mem := buffer 112 [(7, 0x81)] })).map
      (fun t => (t.cursor, asmWord t, scanWord t)) = some (8, 0x00F, 0x10) := by decide

/-- DEPTH 16 reads the odd byte (R63). -/
theorem test_decode_step_deep : (nextOf (exec .decodeStep { running .decode { deep with mem := buffer 208 [(1, 0x01)] } with
    asCnt := 2, asByte := 0x01 })).map asmWord = some 0x303 := by decide

/-- R223 and V-DEC-8, V-DEC-1, V-DEC-4, V-DEC-6's codes. -/
theorem test_decode_complete :
    (nextOf (exec .decodeComplete { running .decode hi with
      scan := .readCksum 4, crcAcc := 0x45621986, stored := 0xBA9DE679 })).map statusWord = some 0x402 ∧
    (nextOf (exec .decodeComplete { running .decode hi with
      scan := .readCksum 4, crcAcc := 0x45621986, stored := 0x3A9DE679 })).map statusWord = some 0x452 ∧
    (nextOf (exec .decodeComplete (running .decode hi))).map statusWord = some 0x432 ∧
    (nextOf (exec .decodeComplete { running .decode hi with scan := .seekEnd 2 })).map statusWord = some 0x442 ∧
    (nextOf (exec .decodeComplete { running .decode hi with scan := .readCksum 2 })).map statusWord = some 0x442 := by
  decide

/-! ### The parameters (R6, R20) -/

/-- R131, R130, R154 at other parameters: L = 112 is above MAX_BUF_BYTES = 111, acceptance takes CRC_INIT, and the final
exclusive-or is CRC_XOROUT. -/
theorem test_parameters_are_arguments :
    (nextOf (exec .geomOk otherParams)).map (·.primOut) = some (.flag false) ∧
    (nextOf (exec .encode otherParams)).map (·.crcAcc) = some 0xFFFFFFFF ∧
    (nextOf (exec .encodeComplete otherParams)).map (·.cksum) = some 0x0F0F0F0F := by
  decide

/-- R153 at another polynomial: the byte 0x01 leaves it, as V-CRC-1 does the default one. -/
theorem test_polynomial_is_argument :
    (nextOf (exec (.crcUpdate 0x00000000 0x01) otherParams)).map (·.primOut) = some (.word 0x1EDC6F41) := by decide

/-! ### Reset and the port -/

/-- R310: a running ENCODE is abandoned; the buffer stays. -/
theorem test_reset : (nextOf (exec .reset { running .encode deep with cursor := 9 })).map
    (fun t => (statusWord t, t.cursor, t.width, t.mem)) = some (0, 0, 0, deep.mem) := by decide

/-- V-CMD-10, V-CMD-8. -/
theorem test_port_config :
    (nextOf (step { State.reset with turns := [.host (.write 0x00 0x100000005)] })).map (·.width) = some 5 ∧
    (nextOf (step { running .encode hi with turns := [.host (.write 0x00 99)] })).map (·.width) = some 16 := by
  decide

/-- R320: the host has no access to the buffer while BUSY. -/
theorem test_host_refused :
    refusalOf (step { running .encode hi with turns := [.host (.bufRead 0)] }) = some .bufferTouchedWhileBusy := by decide

/-- R106: WAIT polls, lets the engine step, and polls again. -/
theorem test_wait : (nextOf (step { checking .capacity hi with turns := [.host .wait] })).map (fun t => (t.turns, t.portOut)) =
    some ([.engine, .host .wait], 0x101) := by decide

/-! ### Witnesses: a state for the hypotheses of each statement -/

theorem witness_DecodeOfEncodeIsIdentity :
    (Instr.reservedHigh 0xFFFFFFF 0xF).wellFormed = true ∧ encode (.reservedHigh 0xFFFFFFF 0xF) = some 0xFFFFFFFF ∧
      (Instr.nop).wellFormed = true ∧ encode .nop = some 0 := by decide

theorem witness_LegalWordsAreTheFiveCommands :
    isLegalCommand 4 = true ∧ isLegalCommand 5 = false ∧ isLegalCommand 0x10 = false ∧ hi.busy = false ∧
      (running .encode hi).busy = true := by decide

theorem witness_StepRunsDecodedCommand :
    ({ hi with turns := [.host (.write 0x08 3)] } : State).turns = .host (.write 0x08 3) :: [] ∧ (64 : Nat) ≤ 64 := by decide

theorem witness_StepRunsSelectedEngineStep :
    ({ hi with turns := [.engine] } : State).turns = [.engine] ∧ hi.turns = [] ∧ hi.busy = false ∧
      ({ hi with turns := [.host .reset] } : State).turns = .host .reset :: [] ∧
      CheckEnabled (checking .decode hi) ∧ EncodeEnabled (running .encode hi) ∧ DecodeEnabled (running .decode hi) := by decide

theorem witness_ResetInputClearsEveryRegister :
    ({ running .encode hi with turns := [.host .reset] } : State).turns = .host .reset :: [] := by decide

theorem witness_ConfigurationWriteWhenIdleOnly :
    ({ hi with turns := [.host (.write 0x04 9)] } : State).turns = .host (.write 0x04 9) :: [] ∧
      (0x04 : BitVec 8).toNat ≤ 4 ∧ (0x00 : BitVec 8).toNat ≤ 4 ∧ hi.busy = false ∧ (running .encode hi).busy = true ∧
      (running .encode hi).turns = [] ∧ (nextOf (step (running .encode hi))).isSome = true := by decide

/-- Both ends of each unassigned range. -/
theorem witness_UnassignedRegistersReadZeroIgnoreWrites : ∀ reg ∈ ([0x05, 0x07, 0x0B, 0x0F, 0x19, 0xFF] : List (BitVec 8)),
    ((5 ≤ reg.toNat ∧ reg.toNat ≤ 7) ∨ (0x0B ≤ reg.toNat ∧ reg.toNat ≤ 0x0F) ∨ 0x19 ≤ reg.toNat) ∧
      nextOf (step { hi with turns := [.host (.read reg)], portOut := 7 }) = some { hi with portOut := 0 } ∧
      nextOf (step { hi with turns := [.host (.write reg 7)] }) = some hi := by decide

/-- Both ends of each read-only range, and no overlap with the unassigned numbers; a read of a register of each kind:
the ends of the configuration registers, CMD, STATUS, SCAN, a 64-bit and a 32-bit working register, an unassigned number. -/
theorem witness_ReadOnlyRegistersIgnoreWrites :
    (∀ reg ∈ ([0x09, 0x0A, 0x10, 0x18] : List (BitVec 8)),
      (reg = 0x09 ∨ reg = 0x0A ∨ (0x10 ≤ reg.toNat ∧ reg.toNat ≤ 0x18)) ∧
        ¬ ((5 ≤ reg.toNat ∧ reg.toNat ≤ 7) ∨ (0x0B ≤ reg.toNat ∧ reg.toNat ≤ 0x0F) ∨ 0x19 ≤ reg.toNat) ∧
        nextOf (step { hi with turns := [.host (.write reg 7)] }) = some hi) ∧
    readOf 0x00 = some 16 ∧ readOf 0x04 = some 2 ∧ readOf 0x08 = some 0 ∧ readOf 0x09 = some 0xB01 ∧
    readOf 0x0A = some 0x31 ∧ readOf 0x14 = some 9 ∧ readOf 0x15 = some 0x45621986 ∧ readOf 0xFF = some 0 :=
  ⟨by decide, by decide, by decide, by decide, by decide, by decide, by decide, by decide, by decide⟩

theorem witness_HostMovesBufferAndStreams :
    hi.busy = false ∧ hi.mem.wf = true ∧ 110 + ([1, 2] : List Byte).length ≤ hi.mem.size ∧
      (nextOf (step { hi with turns := [.host (.buf 110 [1, 2])] })).map (·.mem) = some (buffer 112 [(110, 1), (111, 2)]) ∧
      (nextOf (step { hi with turns := [.host (.attach [0, 5])] })).map (·.mem) = some (buffer 2 [(1, 5)]) ∧
      (nextOf (step { hi with turns := [.host (.src [7])] })).map (·.source) = some [0x48, 0x69, 7] ∧
      (nextOf (step { hi with turns := [.host .sinkClear], sink := [1] })).map (·.sink) = some [] := by decide

theorem witness_CommandWordStartsCommand :
    (Instr.decode, Opcode.decode) ∈
      [(Instr.capacity, Opcode.capacity), (.validate, .validate), (.encode, .encode), (.decode, .decode)] ∧
      hi.busy = false := by decide

theorem witness_IllegalWordSetsResultOnly :
    ((5 : Word32).toNat / 16 ≠ 0 ∨ 5 ≤ (5 : Word32).toNat % 16) ∧
      ((0x10 : Word32).toNat / 16 ≠ 0 ∨ 5 ≤ (0x10 : Word32).toNat % 16) ∧
      (∃ rsvd opcode, rsvd ≠ 0 ∧ Instr.reservedHigh 1 0 = .reservedHigh rsvd opcode) ∧ hi.busy = false :=
  ⟨by decide, by decide, ⟨1, 0, by decide, rfl⟩, by decide⟩

theorem witness_CommandIgnoredWhileBusy :
    (running .encode hi).busy = true ∧ (encode .decode).isSome = true ∧ (encode .reserved5).isSome = true := by decide

/-- A word of each case of R130 and the words where the cases meet. -/
theorem witness_AcceptanceIsR130 : hi.busy = false ∧ (running .encode hi).busy = true ∧
    (∀ w ∈ ([1, 4] : List Nat), w / 16 = 0 ∧ 1 ≤ w ∧ w ≤ 4 ∧ ¬ (w / 16 ≠ 0 ∨ 4 < w % 16)) ∧
    (∀ w ∈ ([5, 15, 16, 0xFFFFFFFF] : List Nat), (w / 16 ≠ 0 ∨ 4 < w % 16) ∧ w ≠ 0 ∧ ¬ (w / 16 = 0 ∧ w ≤ 4)) := by decide

theorem witness_CheckOfCapacity :
    (∀ s ∈ [checking .capacity hi], CheckEnabled s ∧ s.op = .capacity ∧ GeometryLegal s.params s) ∧
      ∀ s ∈ [checking .capacity (geom 16 7 5 8 0)], CheckEnabled s ∧ s.op = .capacity ∧ ¬ GeometryLegal s.params s := by
  decide

/-- N + 12 = CAP passes, N + 12 = CAP + 1 fails. -/
theorem witness_CheckOfValidate :
    (∀ s ∈ [checking .validate hi, checking .validate (geom 16 7 1 8 3)],
      CheckEnabled s ∧ s.op = .validate ∧ GeometryLegal s.params s ∧ capacityBytes s = 14) ∧
      hi.payloadLen.toNat + 12 = 14 ∧
      ∀ s ∈ [checking .validate (geom 16 7 1 12 3)], CheckEnabled s ∧ s.op = .validate ∧ ¬ GeometryLegal s.params s := by
  decide

theorem witness_CheckOfEncode :
    (∀ s ∈ [checking .encode hi, checking .encode (geom 16 7 1 8 3)],
      CheckEnabled s ∧ s.op = .encode ∧ GeometryLegal s.params s ∧ capacityBytes s = 14) ∧
      ∀ s ∈ [checking .encode (geom 16 7 0 8 2)], CheckEnabled s ∧ s.op = .encode ∧ ¬ GeometryLegal s.params s := by
  decide

theorem witness_CheckOfDecode :
    (∀ s ∈ [checking .decode hi], CheckEnabled s ∧ s.op = .decode ∧ GeometryLegal s.params s) ∧
      ∀ s ∈ [checking .decode (geom 16 7 1 0 0)], CheckEnabled s ∧ s.op = .decode ∧ ¬ GeometryLegal s.params s := by
  decide

/-- R157's four cases, at both ends of their ranges for N = 2. -/
theorem witness_FramerPullGivesFramedByte :
    PullsByte hi.params (pulling 0 0) 0x0F 0 [0x48, 0x69] ∧ PullsByte hi.params (pulling 3 0) 0xFF 0 [0x48, 0x69] ∧
      PullsByte hi.params (pulling 4 0) 0x48 0x128E9DCF [0x69] ∧
      PullsByte hi.params { pulling 5 0x128E9DCF with source := [0x69] } 0x69 0x45621986 [] ∧
      PullsByte hi.params (pulling 6 0) 0x0E 0 [0x48, 0x69] ∧ PullsByte hi.params (pulling 9 0) 0xEE 0 [0x48, 0x69] ∧
      PullsByte hi.params (pulling 10 0x45621986) 0xBA 0x45621986 [0x48, 0x69] ∧
      PullsByte hi.params (pulling 13 0x45621986) 0x79 0x45621986 [0x48, 0x69] ∧
      ∀ i crc, (pulling i crc).params = hi.params :=
  ⟨Or.inl (by decide), Or.inl (by decide), Or.inr (Or.inl (by decide)), Or.inr (Or.inl (by decide)),
    Or.inr (Or.inr (Or.inl (by decide))), Or.inr (Or.inr (Or.inl (by decide))), Or.inr (Or.inr (Or.inr (by decide))),
    Or.inr (Or.inr (Or.inr (by decide))), fun _ _ => rfl⟩

theorem witness_EmptySourceHoldsAndPullEnds :
    4 ≤ stalled.frIdx.toNat ∧ stalled.frIdx.toNat < stalled.payloadLen.toNat + 4 ∧ stalled.source = [] ∧
      stalled.frBits.val = 0 ∧ stalled.cursor.toNat ≠ sampleCount stalled ∧
      (pulling 14 0).payloadLen.toNat + 12 ≤ (pulling 14 0).frIdx.toNat := by decide

theorem witness_FramerGivesFramedStream :
    hi.payloadLen.toNat = ([0x48, 0x69] : List Byte).length ∧ ([0x48, 0x69] : List Byte).length + 12 < 2 ^ 64 ∧
      hi.source = [0x48, 0x69] ++ [] ∧ hi.frIdx = 0 ∧ hi.crcAcc = hi.params.crcInit := by decide

/-- The last sample of each depth. -/
theorem witness_EmbedStepWritesOneLsb :
    hi.mem.wf = true ∧ SampleHolds hi (111 : Word64).toNat 111 0 ∧ deep.mem.wf = true ∧
      SampleHolds deep (3 : Word64).toNat 7 0x34 ∧ SampleHolds deep (103 : Word64).toNat 207 0 := by
  unfold SampleHolds
  decide

theorem witness_EmbedStepStopsOutsideBuffer :
    faultOf (exec (.embedStep 0 1) (geom 16 7 1 12 0)) = some .depthNotLegal ∧
      faultOf (exec (.embedStep 112 1) hi) = some .addressOutsideBuffer ∧
      faultOf (exec (.embedStep 104 1) deep) = some .addressOutsideBuffer ∧
      faultOf (exec (.embedStep 111 1) { hi with mem := buffer 111 [] }) = some .bufferShorterThanGeometry ∧
      faultOf (exec (.embedStep 103 1) { deep with mem := buffer 207 [] }) = some .bufferShorterThanGeometry := by decide

theorem witness_EncodeStepEmbedsHeldBit : EncodeEnabled holding ∧ holding.mem.wf = true ∧ 0 < holding.frBits.val ∧
    SampleHolds holding holding.cursor.toNat 111 0 := by
  unfold SampleHolds
  decide

theorem witness_EncodeStepRefillsAndEmbeds : EncodeEnabled refilling ∧ refilling.mem.wf = true ∧
    refilling.frBits.val = 0 ∧ PullsByte refilling.params refilling 0x48 0x128E9DCF [0x69] ∧
    SampleHolds refilling refilling.cursor.toNat 32 0 := by
  refine ⟨by decide, by decide, by decide, Or.inr (Or.inl (by decide)), ?_⟩
  unfold SampleHolds
  decide

/-- An exhausted framer; CURSOR = S before exhaustion, in the loop and outside it; neither. -/
theorem witness_EncodeStepCompletes :
    (∀ s ∈ [running .encode { hi with frIdx := 14 }],
      EncodeEnabled s ∧ s.frBits.val = 0 ∧ s.frIdx.toNat = s.payloadLen.toNat + 12) ∧
    (∀ s ∈ [running .encode { hi with cursor := 112 }],
      EncodeEnabled s ∧ s.cursor.toNat = sampleCount s ∧ s.frIdx.toNat ≠ s.payloadLen.toNat + 12) ∧
    (∀ s ∈ [State.reset, { hi with cursor := 112 }],
      ¬ EncodeEnabled s ∧ s.cursor.toNat = sampleCount s ∧ s.frIdx.toNat ≠ s.payloadLen.toNat + 12) ∧
    hi.cursor.toNat ≠ sampleCount hi := by decide

/-- CAP is met exactly, with a byte of the source left over. -/
theorem witness_EncodeEmbedsFramedStream :
    spare.turns = [] ∧ spare.busy = false ∧ spare.mem.wf = true ∧ GeometryLegal spare.params spare ∧
      BufferAttached spare ∧ spare.payloadLen.toNat = ([0x48, 0x69] : List Byte).length ∧
      ([0x48, 0x69] : List Byte).length + 12 ≤ capacityBytes spare ∧ spare.source = [0x48, 0x69] ++ [0x7A] := by decide

theorem witness_DecodeLoopStepIsR222 :
    DecodeEnabled (running .decode hi) ∧ (running .decode hi).scan ≠ .readCksum 4 ∧ hi.cursor.toNat ≠ sampleCount hi ∧
      SampleHolds (running .decode hi) (running .decode hi).cursor.toNat 0 0 ∧ hi.asCnt.toNat < 7 ∧
      ({ hi with asCnt := 7 } : State).asCnt.toNat = 7 ∧ ({ hi with scan := .readCksum 4 } : State).scan = .readCksum 4 ∧
      ({ hi with cursor := 112 } : State).cursor.toNat = sampleCount hi := by
  unfold SampleHolds
  decide

theorem witness_DecodeIgnoresPayloadLength :
    (checking .decode hi).op = .decode ∧ (nextOf (exec .check (checking .decode hi))).isSome = true ∧
      (nextOf (exec .decodeStep (running .decode hi))).isSome = true := by decide

theorem witness_DecodeCompleteClassifiesByScan :
    ({ hi with scan := .readCksum 4, crcAcc := 0x45621986, stored := 0xBA9DE679 } : State).crcAcc ^^^ hi.params.crcXorout =
      0xBA9DE679 ∧ (3 : Fin 5).val < 4 := by decide

theorem witness_ScanByteRunsSelectedArm :
    scanArm (.seekStart 2) 0x2F = some (.ssMatch 0x2F) ∧ scanArm (.seekStart 3) 0xFF = some (.ssMatchLast 0xFF) ∧
      scanArm (.seekStart 3) 0x0F = some (.ssMismatch 0x0F) ∧ scanArm (.seekEnd 2) 0x2E = some (.seMatch 0x2E) ∧
      scanArm (.seekEnd 3) 0xEE = some (.seMatchLast 0xEE) ∧ scanArm (.seekEnd 3) 0x0E = some (.seMismatch 0x0E) ∧
      scanArm (.readCksum 3) 0 = some (.rcByte 0) ∧ scanArm (.readCksum 4) 0 = none := by decide

theorem witness_SeekStartArmsMoveScanOnly :
    ({ hi with scan := .seekStart 2 } : State).scan = .seekStart 2 ∧ (3 : Fin 4).val = (2 : Fin 4).val + 1 ∧
      (0x2F : Byte) = [0x0F, 0x1F, 0x2F, 0xFF].getD (2 : Fin 4).val 0 ∧ (3 : Fin 4).val = 3 ∧
      (0x0F : Byte) ≠ [0x0F, 0x1F, 0x2F, 0xFF].getD (1 : Fin 4).val 0 := by decide

theorem witness_SeekEndMatchesMoveScanOnly :
    ({ hi with scan := .seekEnd 2 } : State).scan = .seekEnd 2 ∧ (3 : Fin 4).val = (2 : Fin 4).val + 1 ∧
      (0x2E : Byte) = [0x0E, 0x1E, 0x2E, 0xEE].getD (2 : Fin 4).val 0 ∧ (3 : Fin 4).val = 3 := by decide

theorem witness_SeekEndMismatchEmitsHeldBytes :
    ({ hi with scan := .seekEnd 3 } : State).scan = .seekEnd 3 ∧
      (0x0E : Byte) ≠ [0x0E, 0x1E, 0x2E, 0xEE].getD (3 : Fin 4).val 0 ∧
      ([0x0E, 0x1E, 0x2E, 0x0E] : List Byte) = [0x0E, 0x1E, 0x2E].take (3 : Fin 4).val ++ [0x0E] := by decide

theorem witness_ChecksumByteShiftsIntoStored :
    ({ hi with scan := .readCksum 3 } : State).scan = .readCksum 3 ∧ (4 : Fin 5).val = (3 : Fin 5).val + 1 ∧
      ({ running .decode hi with scan := .readCksum 4 } : State).scan = .readCksum 4 ∧
      DecodeEnabled { running .decode hi with scan := .readCksum 4 } := by decide

theorem witness_UnselectedStepsDoNothing :
    ¬ CheckEnabled hi ∧ ¬ EncodeEnabled (running .decode hi) ∧ ¬ DecodeEnabled (running .encode hi) ∧
      scanArm (.seekStart 0) 0x0F ≠ some (.ssMatchLast 0x0F) := by decide

theorem witness_ScannerConservesPayloadBytes :
    ({ hi with scan := .seekEnd 3 } : State).scan = .seekEnd 3 ∧
      (nextOf (exec (.scanByte 0xEE) { hi with scan := .seekEnd 3 })).map (·.scan) = some (.readCksum 0) := by decide

/-- V-SC-15's payload: a prefix of the end marker, broken, then one byte. -/
theorem witness_ScannerRecoversFramedPayload :
    hi.scan = .seekStart 0 ∧ hi.crcAcc = hi.params.crcInit ∧ Recoverable [0x0E, 0x1E, 0x2E, 0x00, 0x41] := by
  unfold Recoverable
  decide

theorem witness_DecodeCompletesInTime :
    hi.turns = [] ∧ hi.busy = false ∧ hi.mem.wf = true ∧ GeometryLegal hi.params hi ∧ BufferAttached hi ∧
      deep.mem.wf = true ∧ GeometryLegal deep.params deep ∧ BufferAttached deep := by decide

/-- A step of the host from reset, which meets the invariant. -/
theorem witness_StepKeepsInvariant : State.reset.Inv ∧ (nextOf (step (State.reset.withFetchWord 32 3))).isSome = true := by
  refine ⟨⟨by decide, by decide, by decide, by decide, fun h => ?_, fun h => ?_⟩, by decide⟩ <;> exact absurd h (by decide)

theorem witness_InstructionsKeepBufferForm :
    deep.mem.wf = true ∧ (nextOf (exec (.embedStep 3 1) deep)).isSome = true := by decide

theorem witness_OnlyLowBitsOfSamplesChange :
    deep.mem.wf = true ∧ (nextOf (exec (.embedStep 3 1) deep)).isSome = true ∧ deep.depth.toNat = 16 ∧ 6 % 2 = 0 ∧
      deep.mem.read 7 = some 0x34 := by decide

theorem witness_EngineStepFootprints :
    (nextOf (exec .decodeStep (running .decode hi))).isSome = true ∧
      (nextOf (exec .encodeStep (running .encode hi))).isSome = true ∧
      (nextOf (exec .check (checking .encode hi))).isSome = true := by decide

theorem witness_SinkOnlyGrows : (nextOf (exec (.emit 1) hi)).isSome = true := by decide

theorem witness_BusyEngineMovesOnUnlessHeld :
    stalled.Inv ∧ BufferAttached stalled ∧ stalled.busy = true ∧ stalled.turns = [] ∧ nextOf (step stalled) = some stalled := by
  refine ⟨⟨by decide, fun h => ?_, by decide, by decide, fun _ h => ?_, fun _ _ =>
    ⟨by decide, by decide, by decide, by decide, fun _ => ⟨by decide, by decide, by decide, by decide⟩, fun h => ?_⟩⟩,
    by decide, by decide, by decide, by decide⟩ <;> exact absurd h (by decide)

theorem witness_InvariantStepNeverFaults :
    lastSample.Inv ∧ BufferAttached lastSample ∧ (nextOf (step lastSample)).map (·.cursor) = some 112 := by
  refine ⟨⟨by decide, fun h => ?_, by decide, by decide, fun _ h => ?_, fun _ _ =>
    ⟨by decide, by decide, by decide, by decide, fun h => ?_, fun _ => ⟨by decide, by decide, by decide⟩⟩⟩,
    by decide, by decide⟩ <;> exact absurd h (by decide)

theorem witness_RefusedOnlyWhenHostOversteps :
    hostOversteps { running .encode hi with turns := [.host (.buf 0 [1])] } = true ∧
      hostOversteps { hi with turns := [.host (.buf 111 [1, 2])] } = true ∧
      hostOversteps { hi with turns := [.host (.buf 110 [1, 2])] } = false ∧
      hostOversteps { hi with turns := [.host (.bufRead 112)] } = true ∧
      hostOversteps { running .encode hi with turns := [.host (.srcDrop 1)] } = true ∧
      hostOversteps { running .encode hi with turns := [.host .sinkClear] } = false := by decide

end Sys2Proof.Machine.Tests
end

section
/-! PROOFS. The configuration registers and the state after reset (10_state.md R26, R48). -/

namespace Sys2Proof.Machine

/-! ### Reset -/

@[simp] theorem statusWord_resetFor (p : Params) : statusWord (State.resetFor p) = 0 := by
  simp [statusWord, State.resetFor, stageBit, opcodeBits, resultBits]

@[simp] theorem scanWord_resetFor (p : Params) : scanWord (State.resetFor p) = 0 := by
  simp [scanWord, State.resetFor, scanProgress, scanPhase]

@[simp] theorem frStateWord_resetFor (p : Params) : frStateWord (State.resetFor p) = 0 := by
  simp [frStateWord, State.resetFor]

@[simp] theorem asmWord_resetFor (p : Params) : asmWord (State.resetFor p) = 0 := by
  simp [asmWord, State.resetFor]

/-- Every register reads 0 after reset, whatever the parameters are: the four packed words by their lemmas, every other
register by its field. -/
@[simp] theorem portRead_resetFor (p : Params) (reg : BitVec 8) : portRead (State.resetFor p) reg = 0 := by
  simp only [portRead, statusWord_resetFor, scanWord_resetFor, frStateWord_resetFor, asmWord_resetFor]
  split <;> rfl

/-- The engine has no step of its own while the block is idle (R48, R287): its turn only passes. -/
theorem step_engine_idle {s : State} {rest : List Turn}
    (h : s.turns = .engine :: rest ∨ (s.turns = [] ∧ rest = [])) (hb : s.busy = false) :
    step s = .next { s with turns := rest } := by
  rw [step_engine h, engineInstr_idle (s := { s with turns := rest }) hb]

/-- Settles O7: every register reads 0 after reset, and the silent host's turn goes to an engine that is idle. -/
theorem resetStateReadsZeroAndIsIdle : Obligations.ResetStateReadsZeroAndIsIdle :=
  ⟨portRead_resetFor Config.defaults, rfl, step_engine_idle (.inr ⟨rfl, rfl⟩) rfl⟩

/-! ### A port write, case by case (R26) -/

theorem portWrite_busy {s : State} (hb : s.busy = true) (reg : BitVec 8) (data : Word64) :
    portWrite reg data s = s := if_pos hb

theorem portWrite_width {s : State} (hb : s.busy = false) (data : Word64) :
    portWrite 0x00 data s = { s with width := data.setWidth 32 } := by simp [portWrite, hb]

theorem portWrite_height {s : State} (hb : s.busy = false) (data : Word64) :
    portWrite 0x01 data s = { s with height := data.setWidth 32 } := by simp [portWrite, hb]

theorem portWrite_channels {s : State} (hb : s.busy = false) (data : Word64) :
    portWrite 0x02 data s = { s with channels := data.setWidth 32 } := by simp [portWrite, hb]

theorem portWrite_depth {s : State} (hb : s.busy = false) (data : Word64) :
    portWrite 0x03 data s = { s with depth := data.setWidth 32 } := by simp [portWrite, hb]

theorem portWrite_payloadLen {s : State} (hb : s.busy = false) (data : Word64) :
    portWrite 0x04 data s = { s with payloadLen := data } := by simp [portWrite, hb]

/-- The host's write to a register other than CMD is the port write on the state without that turn. -/
theorem step_write {s : State} {reg : BitVec 8} {data : Word64} {rest : List Turn}
    (h : s.turns = .host (.write reg data) :: rest) (hr : reg ≠ cmdReg) :
    step s = .next (portWrite reg data { s with turns := rest }) := by
  rw [step_host h]
  simp [hostMove, hr]

/-- The host's write to CMD runs the command word (R27, R91). -/
theorem step_write_cmd {s : State} {data : Word64} {rest : List Turn}
    (h : s.turns = .host (.write cmdReg data) :: rest) :
    step s = exec (decodeCommand (commandWord data)) { s with turns := rest } := by
  rw [step_host h]
  simp [hostMove]

/-! ### What leaves the configuration registers alone -/

/-- WIDTH, HEIGHT, CHANNELS, DEPTH and PAYLOAD_LEN (R21 to R25) of `t` are those of `s`. -/
def SameConfig (s t : State) : Prop :=
  t.width = s.width ∧ t.height = s.height ∧ t.channels = s.channels ∧ t.depth = s.depth ∧ t.payloadLen = s.payloadLen

theorem SameConfig.refl (s : State) : SameConfig s s := ⟨rfl, rfl, rfl, rfl, rfl⟩

theorem exec_check_sameConfig {s t : State} (h : exec .check s = .next t) : SameConfig s t := by
  obtain ⟨_, _, _, _, _, rfl⟩ := exec_check_frame h
  exact .refl s

/-- An ENCODE loop step completes, holds, or refills and embeds; none writes a configuration register (R186, R187). -/
theorem exec_encodeStep_sameConfig {s t : State} (hen : EncodeEnabled s) (h : exec .encodeStep s = .next t) :
    SameConfig s t := by
  rw [exec_encodeStep_enabled hen] at h
  rcases encodeBody_next h with ⟨rfl, _⟩ | ⟨rfl, _⟩ | ⟨b, u, a, v, hr, _, rfl, _⟩
  · exact .refl s
  · exact .refl t
  · obtain ⟨_, _, _, _, _, _, rfl⟩ := refill_frame hr
    exact .refl s

/-- A DECODE loop step completes, or assembles a bit and feeds the scanner; neither writes a configuration register
(R222, R223). -/
theorem exec_decodeStep_sameConfig {s t : State} (hen : DecodeEnabled s) (h : exec .decodeStep s = .next t) :
    SameConfig s t := by
  rw [exec_decodeStep_enabled hen] at h
  rcases decodeBody_next h with ⟨rfl, _⟩ | ⟨_, v, _, rfl, _⟩
  · exact .refl s
  · obtain ⟨_, _, _, _, _, _, e⟩ := feedScanner_frame s.params (assembleBit (getLsb v) s)
    rw [e]
    exact .refl s

/-- A command word starts a command, is refused or is ignored; the configuration registers are kept (R130, R133, D14). -/
theorem exec_decodeCommand_sameConfig {w : Word32} {s t : State} (h : exec (decodeCommand w) s = .next t) :
    SameConfig s t := by
  obtain ⟨u, hu, hcase⟩ := exec_decodeCommand w s
  cases hu.symm.trans h
  rcases hcase with rfl | ⟨_, _, _, rfl⟩ | ⟨_, rfl⟩
  · exact .refl t
  · exact .refl s
  · exact .refl s

/-- No engine turn writes a configuration register, idle or BUSY. -/
theorem step_engine_sameConfig {s t : State} {rest : List Turn}
    (hturn : s.turns = .engine :: rest ∨ (s.turns = [] ∧ rest = [])) (h : step s = .next t) : SameConfig s t := by
  rw [step_engine hturn] at h
  cases hi : engineInstr { s with turns := rest } with
  | none =>
    rw [hi] at h
    cases h
    exact .refl s
  | some i =>
    rw [hi] at h
    rcases engineInstr_some hi with ⟨rfl, _⟩ | ⟨rfl, hen⟩ | ⟨rfl, hen⟩
    · exact exec_check_sameConfig (s := { s with turns := rest }) h
    · exact exec_encodeStep_sameConfig (s := { s with turns := rest }) hen h
    · exact exec_decodeStep_sameConfig (s := { s with turns := rest }) hen h

/-- R320: the host has no access to its buffer while BUSY. -/
theorem hostBuffer_busy {s : State} (hb : s.busy = true) (ok : Bool) (t : State) :
    hostBuffer ok t s = .refused .bufferTouchedWhileBusy := if_pos hb

/-- WAIT reads STATUS and may put off the next turn; it changes nothing else (R106). -/
theorem pollStatus_frame (s : State) : ∃ out turns, pollStatus s = { s with portOut := out, turns := turns } := by
  unfold pollStatus
  split
  · exact ⟨_, _, rfl⟩
  · exact ⟨_, s.turns, rfl⟩

/-- While BUSY no host action but the reset input writes a configuration register: a port write there is ignored, and an
access to the buffer or a removal from the source has no next state. -/
theorem step_host_busy_sameConfig {s t : State} {a : HostAction} {rest : List Turn} (hturn : s.turns = .host a :: rest)
    (hb : s.busy = true) (ha : a ≠ .reset) (h : step s = .next t) : SameConfig s t := by
  have hbuf : ∀ ok u, hostBuffer ok u { s with turns := rest } ≠ .next t := fun ok u hn => by
    rw [hostBuffer_busy (s := { s with turns := rest }) hb] at hn
    cases hn
  cases a with
  | write reg data =>
    by_cases hr : reg = cmdReg
    · subst hr
      rw [step_write_cmd hturn] at h
      exact exec_decodeCommand_sameConfig (s := { s with turns := rest }) h
    · rw [step_write hturn hr, portWrite_busy (s := { s with turns := rest }) hb] at h
      cases h
      exact .refl s
  | reset => exact absurd rfl ha
  | buf offset bytes => rw [step_host hturn] at h; exact absurd h (hbuf _ _)
  | bufRead offset => rw [step_host hturn] at h; exact absurd h (hbuf _ _)
  | attach bytes => rw [step_host hturn] at h; exact absurd h (hbuf _ _)
  | srcDrop count =>
    rw [step_host hturn] at h
    simp [hostMove, hb] at h
  | wait =>
    rw [step_host hturn] at h
    obtain ⟨_, _, e⟩ := pollStatus_frame { s with turns := rest }
    simp only [hostMove, e] at h
    cases h
    exact .refl s
  | read reg => rw [step_host hturn] at h; cases h; exact .refl s
  | src bytes => rw [step_host hturn] at h; cases h; exact .refl s
  | sinkRead => rw [step_host hturn] at h; cases h; exact .refl s
  | sinkClear => rw [step_host hturn] at h; cases h; exact .refl s

/-- The second half of R26: the configuration is constant for the whole of a command. -/
theorem step_busy_sameConfig {s t : State} (hb : s.busy = true) (hreset : ∀ rest, s.turns ≠ .host .reset :: rest)
    (h : step s = .next t) : SameConfig s t := by
  cases hturns : s.turns with
  | nil => exact step_engine_sameConfig (.inr ⟨hturns, rfl⟩) h
  | cons turn rest =>
    cases turn with
    | engine => exact step_engine_sameConfig (.inl hturns) h
    | host a => exact step_host_busy_sameConfig hturns hb (fun ha => hreset rest (ha ▸ hturns)) h

/-- Settles O9: the write is the port write of R26, register by register, and every turn of a BUSY block but the reset
input keeps the configuration. -/
theorem configurationWriteWhenIdleOnly : Obligations.ConfigurationWriteWhenIdleOnly := by
  refine ⟨fun s reg data rest hturn hle => ?_, fun s t hb hreset h => step_busy_sameConfig hb hreset h⟩
  have hcmd : reg ≠ cmdReg := by
    rintro rfl
    exact absurd hle (by decide)
  rw [step_write hturn hcmd]
  refine ⟨fun hb => ?_, fun hb => ⟨?_, ?_, ?_, ?_, ?_⟩⟩
  · rw [portWrite_busy (s := { s with turns := rest }) hb]
  · rintro rfl; rw [portWrite_width (s := { s with turns := rest }) hb]
  · rintro rfl; rw [portWrite_height (s := { s with turns := rest }) hb]
  · rintro rfl; rw [portWrite_channels (s := { s with turns := rest }) hb]
  · rintro rfl; rw [portWrite_depth (s := { s with turns := rest }) hb]
  · rintro rfl; rw [portWrite_payloadLen (s := { s with turns := rest }) hb]

end Sys2Proof.Machine
end

section
/-! PROOFS. The payload sink is only extended (20_memory.md R71, R72). -/

namespace Sys2Proof.Machine

/-! ### What leaves the sink alone -/

@[simp] theorem startCommand_sink (p : Params) (o : Opcode) (s : State) : (startCommand p o s).sink = s.sink := by
  unfold startCommand; split <;> rfl

@[simp] theorem refuseCommand_sink (s : State) : (refuseCommand s).sink = s.sink := by
  unfold refuseCommand; split <;> rfl

@[simp] theorem acceptWord_sink (p : Params) (w : Word32) (s : State) : (acceptWord p w s).sink = s.sink := by
  unfold acceptWord; (repeat' split) <;> rfl

@[simp] theorem ssMatch_sink (c : Byte) (s : State) : (ssMatch c s).sink = s.sink := by
  unfold ssMatch; (repeat' split) <;> rfl

@[simp] theorem ssMatchLast_sink (c : Byte) (s : State) : (ssMatchLast c s).sink = s.sink := by
  unfold ssMatchLast; (repeat' split) <;> rfl

@[simp] theorem ssMismatch_sink (c : Byte) (s : State) : (ssMismatch c s).sink = s.sink := by
  unfold ssMismatch; (repeat' split) <;> rfl

@[simp] theorem seMatch_sink (c : Byte) (s : State) : (seMatch c s).sink = s.sink := by
  unfold seMatch; (repeat' split) <;> rfl

@[simp] theorem seMatchLast_sink (c : Byte) (s : State) : (seMatchLast c s).sink = s.sink := by
  unfold seMatchLast; (repeat' split) <;> rfl

@[simp] theorem rcByte_sink (c : Byte) (s : State) : (rcByte c s).sink = s.sink := by
  unfold rcByte; (repeat' split) <;> rfl

theorem exec_check_sink {s t : State} (h : exec .check s = .next t) : t.sink = s.sink := by
  obtain ⟨_, _, _, _, _, rfl⟩ := exec_check_frame h
  rfl

/-- ENCODE completes, holds, or refills and embeds a bit in the buffer (R186, R187). -/
theorem exec_encodeStep_sink {s t : State} (h : exec .encodeStep s = .next t) : t.sink = s.sink := by
  by_cases hen : EncodeEnabled s
  · rw [exec_encodeStep_enabled hen] at h
    rcases encodeBody_next h with ⟨rfl, _⟩ | ⟨rfl, _⟩ | ⟨_, _, _, _, hr, _, rfl, _⟩
    · rfl
    · rfl
    · obtain ⟨_, _, _, _, _, _, rfl⟩ := refill_frame hr
      rfl
  · rw [exec_encodeStep_disabled hen] at h
    cases h
    rfl

theorem exec_encodeTruncate_sink {s t : State} (h : exec .encodeTruncate s = .next t) : t.sink = s.sink := by
  simp only [exec, execEncodeTruncate] at h
  split at h <;> cases h <;> rfl

/-- A pull takes from the source and leaves the sink, whether it gives a byte, holds or ends (R156, R157). -/
theorem exec_framerPull_sink {s t : State} (h : exec .framerPull s = .next t) : t.sink = s.sink := by
  simp only [exec, execFramerPull] at h
  cases hp : framerPull s.params s with (rw [hp] at h; cases h)
  | byte b u =>
    obtain ⟨_, _, _, rfl⟩ := (framerPull_byte_iff _ _ _ _).1 hp
    rfl
  | hold => rfl
  | endOfStream => rfl

theorem exec_embedStep_sink {k : Word64} {bit : BitVec 1} {s t : State} (h : exec (.embedStep k bit) s = .next t) :
    t.sink = s.sink := by
  simp only [exec, execEmbedStep] at h
  cases he : embedStep k.toNat bit s with (rw [he] at h; cases h)
  | ok u =>
    obtain ⟨_, _, _, rfl⟩ := (embedStep_ok_iff _ _ _ _).1 he
    rfl

/-! ### What extends it -/

theorem emitByte_sink_prefix (p : Params) (b : Byte) (s : State) : s.sink <+: (emitByte p b s).sink :=
  List.prefix_append _ _

theorem scanByte_sink_prefix (p : Params) (c : Byte) (s : State) : s.sink <+: (scanByte p c s).sink := by
  obtain ⟨_, _, _, out, _, e⟩ := scanByte_frame p c s
  rw [e]
  exact List.prefix_append _ out

/-- A mismatch in SEEK_END emits the held-back bytes and then c (R232); elsewhere the arm is not taken. -/
theorem seMismatch_sink_prefix (p : Params) (c : Byte) (s : State) : s.sink <+: (seMismatch p c s).sink := by
  unfold seMismatch
  split
  · exact List.prefix_rfl
  · split
    · simp only [emitByte_sink, emitBytes_sink, List.append_assoc]
      exact List.prefix_append _ _
    · exact List.prefix_rfl
  · exact List.prefix_rfl

/-- A DECODE loop step completes with the sink as it was, or assembles a bit and feeds the scanner (R222). -/
theorem exec_decodeStep_sink_prefix {s t : State} (h : exec .decodeStep s = .next t) : s.sink <+: t.sink := by
  by_cases hen : DecodeEnabled s
  · rw [exec_decodeStep_enabled hen] at h
    rcases decodeBody_next h with ⟨rfl, _⟩ | ⟨_, v, _, rfl, _⟩
    · exact List.prefix_rfl
    · obtain ⟨_, _, _, _, out, _, e⟩ := feedScanner_frame s.params (assembleBit (getLsb v) s)
      rw [e]
      exact List.prefix_append _ out
  · rw [exec_decodeStep_disabled hen] at h
    cases h
    exact List.prefix_rfl

/-- Settles O57, by the instruction: those that run EMIT append to the sink, every other leaves it as it was. -/
theorem sinkOnlyGrows : Obligations.SinkOnlyGrows := by
  intro i s t h
  cases i with
  | emit b => cases h; exact emitByte_sink_prefix _ _ _
  | scanByte c => cases h; exact scanByte_sink_prefix _ _ _
  | seMismatch c => cases h; exact seMismatch_sink_prefix _ _ _
  | decodeStep => exact exec_decodeStep_sink_prefix h
  | check => rw [exec_check_sink h]
  | encodeStep => rw [exec_encodeStep_sink h]
  | encodeTruncate => rw [exec_encodeTruncate_sink h]
  | framerPull => rw [exec_framerPull_sink h]
  | embedStep => rw [exec_embedStep_sink h]
  | capacity | validate | encode | decode => cases h; rw [startCommand_sink]
  | reserved5 | reserved67 | reserved8F | reservedHigh => cases h; rw [refuseCommand_sink]
  | accept => cases h; rw [acceptWord_sink]
  | ssMatch => cases h; rw [ssMatch_sink]
  | ssMatchLast => cases h; rw [ssMatchLast_sink]
  | ssMismatch => cases h; rw [ssMismatch_sink]
  | seMatch => cases h; rw [seMatch_sink]
  | seMatchLast => cases h; rw [seMatchLast_sink]
  | rcByte => cases h; rw [rcByte_sink]
  | nop | geomOk | encodeComplete | setLsb | getLsb | decodeComplete | crcUpdate | reset =>
    cases h; exact List.prefix_rfl

end Sys2Proof.Machine
end

section
/-! PROOFS. The command words: the two fields as numbers, and which rows the legal words have (30_encoding.md R91 to
R93). -/

namespace Sys2Proof

/-! ### The fields of a word (R91) -/

@[simp] theorem opcodeField_toNat (w : Word32) : (opcodeField w).toNat = w.toNat % 16 := by
  simp [opcodeField]

@[simp] theorem rsvdField_toNat (w : Word32) : (rsvdField w).toNat = w.toNat / 16 := by
  simp only [rsvdField, BitVec.toNat_setWidth, BitVec.toNat_ushiftRight, Nat.shiftRight_eq_div_pow]
  omega

theorem rsvdField_eq_zero_iff (w : Word32) : rsvdField w = 0 ↔ w.toNat / 16 = 0 := by
  simp [← BitVec.toNat_inj]

/-- R93 in numbers. -/
theorem isLegalCommand_iff (w : Word32) : isLegalCommand w = true ↔ w.toNat / 16 = 0 ∧ w.toNat % 16 ≤ 4 := by
  simp only [isLegalCommand, Bool.and_eq_true, beq_iff_eq, decide_eq_true_eq, rsvdField_eq_zero_iff, BitVec.le_def,
    opcodeField_toNat, BitVec.reduceToNat]

/-! ### The rows of a word (R92) -/

/-- The reserved rows of the opcode table: the commands that R133 refuses. -/
def Instr.isReserved : Instr → Bool
  | .reserved5 | .reserved67 _ | .reserved8F _ | .reservedHigh _ _ => true
  | _ => false

/-- A legal word is one of the five commands, an illegal one has a reserved row: the split of the decoder, once. -/
theorem decodeCommand_cases (w : Word32) :
    (isLegalCommand w = true ∧ decodeCommand w ∈ [Instr.nop, .capacity, .validate, .encode, .decode]) ∨
      (isLegalCommand w = false ∧ (decodeCommand w).isReserved = true) := by
  simp only [← Bool.not_eq_true, isLegalCommand_iff, decodeCommand, rsvdField_eq_zero_iff, opcodeField_toNat]
  split
  next hrsvd =>
    split
    -- opcodes 0 to 4, then 5 to 7, then 8 to 15, where the match has left eight inequations
    iterate 5 exact .inl ⟨by omega, by decide⟩
    iterate 3 exact .inr ⟨by omega, rfl⟩
    simp only [imp_false] at *
    exact .inr ⟨by omega, rfl⟩
  next hrsvd => exact .inr ⟨fun h => hrsvd h.1, rfl⟩

theorem isReserved_of_mem_commands {i : Instr} (h : i ∈ [Instr.nop, .capacity, .validate, .encode, .decode]) :
    i.isReserved = false := by
  revert i
  decide

theorem isLegalCommand_iff_mem_commands (w : Word32) :
    isLegalCommand w = true ↔ decodeCommand w ∈ [Instr.nop, .capacity, .validate, .encode, .decode] := by
  rcases decodeCommand_cases w with ⟨hlegal, hmem⟩ | ⟨hillegal, hres⟩
  · exact iff_of_true hlegal hmem
  · refine iff_of_false (by simp [hillegal]) fun hmem => ?_
    simp [isReserved_of_mem_commands hmem] at hres

theorem isReserved_of_not_legal {w : Word32} (h : isLegalCommand w = false) : (decodeCommand w).isReserved = true := by
  rcases decodeCommand_cases w with ⟨hlegal, _⟩ | ⟨_, hres⟩
  · simp [h] at hlegal
  · exact hres

end Sys2Proof

namespace Sys2Proof.Machine

/-! ### What an illegal word does (R133) -/

theorem refuseCommand_idle {s : State} (hb : s.busy = false) :
    refuseCommand s = { s with done := true, result := .illegalCommand } := by simp [refuseCommand, hb]

theorem refuseCommand_busy {s : State} (hb : s.busy = true) : refuseCommand s = s := if_pos hb

/-- The four reserved rows have one meaning, whatever their operands are. -/
theorem exec_reserved {i : Instr} (h : i.isReserved = true) (s : State) : exec i s = .next (refuseCommand s) := by
  cases i with
  | reserved5 | reserved67 | reserved8F | reservedHigh => rfl
  | _ => cases h

/-- Settles O3: the decoder splits the words as R93 does, and a reserved row is refused when idle, ignored when BUSY. -/
theorem legalWordsAreTheFiveCommands : Obligations.LegalWordsAreTheFiveCommands := by
  refine fun w => ⟨isLegalCommand_iff w, isLegalCommand_iff_mem_commands w, fun hillegal s => ?_⟩
  rw [exec_reserved (isReserved_of_not_legal hillegal)]
  exact ⟨fun hb => by rw [refuseCommand_idle hb], fun hb => by rw [refuseCommand_busy hb]⟩

end Sys2Proof.Machine
end

section
/-! PROOFS. Accepting a command word: NOP, the illegal words and the acceptance rule (40_command_and_capacity.md R130, R132,
R133). -/

namespace Sys2Proof

/-! ### The reserved rows that stand for a word (R92, R133) -/

/-- Every word decodes to an instruction the hardware has: RESERVED_HIGH is answered only where bits 31:4 are not 0. -/
theorem decodeCommand_wellFormed (w : Word32) : (decodeCommand w).wellFormed = true := by
  unfold decodeCommand
  split
  · split <;> rfl
  next hrsvd => simpa [Instr.wellFormed] using hrsvd

/-- The four reserved rows, by name. -/
theorem reserved_wellFormed_iff (i : Instr) : (i.isReserved = true ∧ i.wellFormed = true) ↔
    i = .reserved5 ∨ (∃ low, i = .reserved67 low) ∨ (∃ low, i = .reserved8F low) ∨
      (∃ rsvd opcode, rsvd ≠ 0 ∧ i = .reservedHigh rsvd opcode) := by
  cases i <;> simp [Instr.isReserved, Instr.wellFormed]

theorem not_legal_of_illegal_fields {w : Word32} (h : w.toNat / 16 ≠ 0 ∨ 4 < w.toNat % 16) :
    isLegalCommand w = false := by
  rw [← Bool.not_eq_true, isLegalCommand_iff]
  omega

end Sys2Proof

namespace Sys2Proof.Machine

/-! ### NOP and the illegal words -/

/-- Settles O15: NOP's word is 0 and its meaning is the state it is given. -/
theorem nopChangesNothing : Obligations.NopChangesNothing := ⟨rfl, fun _ => rfl⟩

/-- Settles O17: an illegal word has a reserved row that is well formed, and the reserved rows are refused. -/
theorem illegalWordSetsResultOnly : Obligations.IllegalWordSetsResultOnly := by
  refine ⟨fun w hw => ?_, fun s i hi => ?_⟩
  · have hillegal : isLegalCommand w = false := not_legal_of_illegal_fields hw
    exact (reserved_wellFormed_iff _).1 ⟨isReserved_of_not_legal hillegal, decodeCommand_wellFormed w⟩
  · obtain ⟨hres, -⟩ := (reserved_wellFormed_iff i).2 hi
    rw [exec_reserved hres]
    exact ⟨fun hb => by rw [refuseCommand_idle hb], fun hb => by rw [refuseCommand_busy hb]⟩

/-! ### The acceptance rule, line by line (R130) -/

theorem acceptWord_busy {s : State} (hb : s.busy = true) (p : Params) (w : Word32) : acceptWord p w s = s := if_pos hb

theorem acceptWord_zero (p : Params) (s : State) : acceptWord p 0 s = s := by simp [acceptWord]

/-- The two tests of the acceptance rule's refusing line, on the number of the word. -/
theorem illegal_fields_iff (w : Word32) :
    (w >>> 4 ≠ 0 ∨ (w.setWidth 4).toNat > 4) ↔ (w.toNat / 16 ≠ 0 ∨ 4 < w.toNat % 16) := by
  simp [← BitVec.toNat_inj, Nat.shiftRight_eq_div_pow]

theorem acceptWord_illegal {s : State} (hb : s.busy = false) (p : Params) {w : Word32}
    (h : w.toNat / 16 ≠ 0 ∨ 4 < w.toNat % 16) :
    acceptWord p w s = { s with done := true, result := .illegalCommand } := by
  have h0 : w ≠ 0 := by rintro rfl; simp at h
  unfold acceptWord
  rw [if_neg (by simp [hb]), if_neg h0, if_pos ((illegal_fields_iff w).2 h)]

theorem acceptWord_legal {s : State} (hb : s.busy = false) (p : Params) {w : Word32} (h1 : 1 ≤ w.toNat)
    (h4 : w.toNat ≤ 4) : acceptWord p w s = beginCommand p (opcodeOf w) s := by
  have h0 : w ≠ 0 := by rintro rfl; simp at h1
  unfold acceptWord
  rw [if_neg (by simp [hb]), if_neg h0, if_neg (by rw [illegal_fields_iff]; omega)]

/-- STATUS.OP is bits 2:0 of a legal word. -/
theorem opcodeBits_opcodeOf {w : Word32} (h : w.toNat ≤ 4) : opcodeBits (opcodeOf w) = w.toNat := by
  obtain ⟨n, hn, rfl⟩ : ∃ n ≤ 4, w = BitVec.ofNat 32 n := ⟨w.toNat, h, by simp⟩
  interval_cases n <;> rfl

/-- Settles O20: each line of R130 is the lemma of that line at w = DATA[31:0]. -/
theorem acceptanceIsR130 : Obligations.AcceptanceIsR130 := by
  refine ⟨fun s data w hw => ?_, _, rfl, by decide⟩
  have hword : (commandWord data).toNat = w := by simp [commandWord, hw]
  have hexec : exec (.accept data) s = .next (acceptWord s.params (commandWord data) s) := rfl
  rw [hexec]
  refine ⟨fun hb => by rw [acceptWord_busy hb], fun hb => ⟨fun h0 => ?_, fun hill => ?_, fun _ h1 h4 => ?_⟩⟩
  · have hz : commandWord data = 0 := BitVec.eq_of_toNat_eq (hword.trans h0)
    rw [hz, acceptWord_zero]
  · rw [acceptWord_illegal hb _ (by rwa [hword])]
  · refine ⟨opcodeOf (commandWord data), ?_, ?_⟩
    · rw [opcodeBits_opcodeOf (by omega), hword]; omega
    · rw [acceptWord_legal hb _ (by omega) (by omega)]; rfl

end Sys2Proof.Machine
end

section
/-! PROOFS. The geometry check and the CHECK step of CAPACITY (40_command_and_capacity.md R131, R134, R135). -/

namespace Sys2Proof.Machine

/-- Settles O21: the law of the geometry check. -/
theorem geometryCheckIsR131 : Obligations.GeometryCheckIsR131 := geometryOk_iff

/-- The first line of CHECK, whatever OP is: an illegal geometry completes with nothing computed (R134). -/
theorem exec_check_not_geometryLegal {s : State} (hen : CheckEnabled s) (hg : ¬ GeometryLegal s.params s) :
    exec .check s = .next (complete .unsupportedFormat s) := by
  rw [exec_check_enabled hen]
  exact if_neg (mt (geometryOk_iff _ _).1 hg)

theorem exec_check_capacity {s : State} (hen : CheckEnabled s) (ho : s.op = .capacity)
    (hg : GeometryLegal s.params s) :
    exec .check s = .next (complete .ok { s with capacity := BitVec.ofNat 64 (capacityBytes s) }) := by
  rw [exec_check_enabled hen]
  simp [checkBody, (geometryOk_iff _ _).2 hg, ho]

/-- CAP fits its register: no bit of the floor is lost (R35, R137). -/
theorem GeometryLegal.capacity_toNat {p : Params} {s : State} (hg : GeometryLegal p s) :
    (BitVec.ofNat 64 (capacityBytes s)).toNat = capacityBytes s := by
  have hS := hg.sampleCount_lt
  exact Nat.mod_eq_of_lt (lt_of_le_of_lt (Nat.div_le_self _ _) hS)

/-- Settles O23: the two outcomes of CHECK at OP 1, with CAP read back from its register. -/
theorem checkOfCapacity : Obligations.CheckOfCapacity := by
  refine ⟨rfl, fun s hen ho => ⟨fun hg => ?_, fun hg => ⟨_, hg.capacity_toNat, ?_⟩⟩⟩
  · exact exec_check_not_geometryLegal hen hg
  · exact exec_check_capacity hen ho hg

end Sys2Proof.Machine
end

section
/-! PROOFS. One bit in one sample, and the end of ENCODE (42_sample_codec.md R184, R187). -/

namespace Sys2Proof.Machine

/-- EMBED_STEP at a sample that has a byte: one write to that byte, whatever the bit is. -/
theorem exec_embedStep_of_sampleHolds {s : State} {k : Word64} {a : Nat} {v : Byte} (h : SampleHolds s k.toNat a v)
    (bit : BitVec 1) : exec (.embedStep k bit) s = .next { s with mem := s.mem.write a (setLsb v bit) } := by
  have he : embedStep k.toNat bit s = .ok { s with mem := s.mem.write a (setLsb v bit) } :=
    (embedStep_ok_iff ..).2 ⟨a, v, h, rfl⟩
  simp only [exec, execEmbedStep, he]

/-- Settles O32: the buffer after the step is the one written at the sample's offset, and such a write touches no other
offset. -/
theorem embedStepWritesOneLsb : Obligations.EmbedStepWritesOneLsb := by
  intro s k bit a v hwf hsample
  have hread : s.mem.read a = some v := hsample.2.2
  exact ⟨s.mem.write a (setLsb v bit), exec_embedStep_of_sampleHolds hsample bit, oneByteWritten_write hwf hread _⟩

/-- Settles O36: ENCODE_COMPLETE is unconditional, so its meaning in every state is R187's pseudocode unfolded. -/
theorem encodeCompleteReportsChecksum : Obligations.EncodeCompleteReportsChecksum := fun _ => rfl

end Sys2Proof.Machine
end

section
/-! PROOFS. DECODE's steps and the arms of the marker scanner (43_marker_scan.md R221 to R236). -/

namespace Sys2Proof.Machine

/-! ### The CHECK step of DECODE (R221) -/

theorem exec_check_decode {s : State} (hen : CheckEnabled s) (ho : s.op = .decode) (hg : GeometryLegal s.params s) :
    exec .check s = .next { s with capacity := BitVec.ofNat 64 (capacityBytes s), stage := .run } := by
  rw [exec_check_enabled hen]
  simp [checkBody, (geometryOk_iff _ _).2 hg, ho]

/-- Settles O26: the two outcomes of CHECK at OP 4, neither of which looks at PAYLOAD_LEN. -/
theorem checkOfDecode : Obligations.CheckOfDecode := by
  refine fun s hen ho => ⟨fun hg => ?_, fun hg => ⟨_, hg.capacity_toNat, ?_⟩⟩
  · exact exec_check_not_geometryLegal hen hg
  · exact exec_check_decode hen ho hg

/-! ### DECODE_COMPLETE (R223) -/

theorem decodeResult_seekStart {s : State} {n : Fin 4} (hs : s.scan = .seekStart n) :
    decodeResult s = .startNotFound := by simp [decodeResult, hs]

theorem decodeResult_seekEnd {s : State} {n : Fin 4} (hs : s.scan = .seekEnd n) :
    decodeResult s = .endNotFound := by simp [decodeResult, hs]

theorem decodeResult_readCksum_lt {s : State} {n : Fin 5} (hs : s.scan = .readCksum n) (hn : n.val < 4) :
    decodeResult s = .endNotFound := by simp [decodeResult, hs, hn.ne]

theorem decodeResult_terminal_of_eq {s : State} (hs : s.scan = .readCksum 4) (hk : s.cksum = s.stored) :
    decodeResult s = .ok := by simp [decodeResult, hs, hk]

theorem decodeResult_terminal_of_ne {s : State} (hs : s.scan = .readCksum 4) (hk : s.cksum ≠ s.stored) :
    decodeResult s = .checksumMismatch := by simp [decodeResult, hs, hk]

/-- Settles O41: the code is the one DECODE_COMPLETE reports once CKSUM is written, state by state of SCAN. -/
theorem decodeCompleteClassifiesByScan : Obligations.DecodeCompleteClassifiesByScan := by
  intro s
  refine ⟨decodeResult { s with cksum := crcFinal s.params s.crcAcc }, rfl, ?_, ?_, ?_, ?_, ?_⟩
  · exact fun n hs => decodeResult_seekStart hs
  · exact fun n hs => decodeResult_seekEnd hs
  · exact fun n hs hn => decodeResult_readCksum_lt hs hn
  · exact fun hs heq => decodeResult_terminal_of_eq hs heq
  · exact fun hs hne => decodeResult_terminal_of_ne hs hne

/-! ### The DECODE loop step (R222) -/

/-- Shifting `k` low bits into a word: what AS_BYTE does with a bit (R103) and STORED with a byte (R236). -/
theorem toNat_shiftLeft_or_setWidth {w k : Nat} (x : BitVec w) (y : BitVec k) :
    ((x <<< k) ||| y.setWidth w).toNat = (x.toNat * 2 ^ k + y.toNat) % 2 ^ w := by
  rw [BitVec.toNat_or, BitVec.toNat_shiftLeft, BitVec.toNat_setWidth, ← Nat.or_mod_two_pow,
    ← Nat.shiftLeft_add_eq_or_of_lt y.isLt, Nat.shiftLeft_eq]

theorem assembleBit_asByte_toNat (v : Byte) (s : State) :
    (assembleBit (getLsb v) s).asByte.toNat = (s.asByte.toNat * 2 + v.toNat % 2) % 256 := by
  rw [← getLsb_toNat]
  exact toNat_shiftLeft_or_setWidth s.asByte (getLsb v)

theorem feedScanner_of_lt {s : State} (h : s.asCnt.toNat < 7) (p : Params) :
    feedScanner p s = { s with asCnt := s.asCnt + 1 } :=
  if_neg fun h7 => by simp [h7] at h

theorem feedScanner_of_eq {s : State} (h : s.asCnt.toNat = 7) (p : Params) :
    feedScanner p s = scanByte p s.asByte { s with asCnt := 0 } :=
  if_pos ((bitVec_eq_iff_toNat _ 7 (by norm_num)).2 h)

/-- The first two lines of the loop step: the terminal state and the last sample complete alike. -/
theorem exec_decodeStep_complete {s : State} (hen : DecodeEnabled s)
    (h : s.scan = .readCksum 4 ∨ s.cursor.toNat = sampleCount s) :
    exec .decodeStep s = .next (decodeComplete s.params s) := by
  rw [exec_decodeStep_enabled hen]
  rcases h with hs | hc
  · simp [decodeBody, (scanTerminal_iff s).2 hs]
  · simp [decodeBody, (samplesExhausted_iff s).2 hc]

/-- The other lines of the loop step, at a sample that has a byte: its bit is assembled and the scanner fed. -/
theorem exec_decodeStep_feed {s : State} (hen : DecodeEnabled s) (hs : s.scan ≠ .readCksum 4)
    (hc : s.cursor.toNat ≠ sampleCount s) {a : Nat} {v : Byte} (hv : SampleHolds s s.cursor.toNat a v) :
    exec .decodeStep s = .next (feedScanner s.params (assembleBit (getLsb v) s)) := by
  rw [exec_decodeStep_enabled hen]
  unfold decodeBody
  rw [if_neg (mt (scanTerminal_iff s).1 hs), if_neg (mt (samplesExhausted_iff s).1 hc),
    (readSample_ok_iff ..).2 ⟨a, hv⟩]

/-- Settles O39: the loop step completes, or feeds the scanner the assembled byte, which is counted below the eighth bit
and scanned at it. -/
theorem decodeLoopStepIsR222 : Obligations.DecodeLoopStepIsR222 := by
  refine fun s hen => ⟨fun h => ⟨_, rfl, exec_decodeStep_complete hen h⟩, fun a v hs hc hv => ?_⟩
  refine ⟨_, assembleBit_asByte_toNat v s, fun hlt => ?_, fun heq => ⟨_, rfl, ?_⟩⟩
  · rw [exec_decodeStep_feed hen hs hc hv, feedScanner_of_lt (s := assembleBit (getLsb v) s) hlt]
    rfl
  · rw [exec_decodeStep_feed hen hs hc hv, feedScanner_of_eq (s := assembleBit (getLsb v) s) heq]
    rfl

/-! ### The arms of SEEK_START (R226 to R228) -/

theorem ssMatch_of_eq {s : State} {n m : Fin 4} {c : Byte} (hs : s.scan = .seekStart n) (hm : m.val = n.val + 1)
    (hc : c = startByte n.val) : ssMatch c s = { s with scan := .seekStart m } := by
  have h3 : n.val < 3 := by omega
  simp [ssMatch, hs, h3, hc, ← hm]

theorem ssMatchLast_of_eq {s : State} {n : Fin 4} (hs : s.scan = .seekStart n) (hn : n.val = 3) :
    ssMatchLast (startByte 3) s = { s with scan := .seekEnd 0 } := by simp [ssMatchLast, hs, hn]

theorem ssMismatch_of_ne {s : State} {n : Fin 4} {c : Byte} (hs : s.scan = .seekStart n) (hc : c ≠ startByte n.val) :
    ssMismatch c s = { s with scan := .seekStart 0 } := by simp [ssMismatch, hs, hc]

/-- Settles O43: the three arms of SEEK_START, with the marker's bytes in the spec's numbers. -/
theorem seekStartArmsMoveScanOnly : Obligations.SeekStartArmsMoveScanOnly := by
  intro s n c hs
  rw [← startByte_eq n.val n.isLt]
  refine ⟨fun m hm hc => ?_, fun hn hc => ?_, fun hc => ?_⟩
  · exact congrArg _ (ssMatch_of_eq hs hm hc)
  · subst hc
    exact congrArg _ (ssMatchLast_of_eq hs hn)
  · exact congrArg _ (ssMismatch_of_ne hs hc)

/-! ### EMIT and the arms of SEEK_END (R229 to R233) -/

theorem seMatch_of_eq {s : State} {n m : Fin 4} {c : Byte} (hs : s.scan = .seekEnd n) (hm : m.val = n.val + 1)
    (hc : c = endByte n.val) : seMatch c s = { s with scan := .seekEnd m } := by
  have h3 : n.val < 3 := by omega
  simp [seMatch, hs, h3, hc, ← hm]

theorem seMatchLast_of_eq {s : State} {n : Fin 4} (hs : s.scan = .seekEnd n) (hn : n.val = 3) :
    seMatchLast (endByte 3) s = { s with scan := .readCksum 0 } := by simp [seMatchLast, hs, hn]

/-- The mismatch arm is what SCAN_BYTE does with such a byte, so its effect is the law of SCAN_BYTE in SEEK_END. -/
theorem seMismatch_eq_scanByte {s : State} {n : Fin 4} {c : Byte} (hs : s.scan = .seekEnd n) (hc : c ≠ endByte n.val)
    (p : Params) : seMismatch p c s = scanByte p c s := by simp [scanByte, hs, hc]

theorem seMismatch_of_ne {s : State} {n : Fin 4} {c : Byte} (hs : s.scan = .seekEnd n) (hc : c ≠ endByte n.val)
    (p : Params) :
    seMismatch p c s =
      { s with
        scan := .seekEnd 0, sink := s.sink ++ (heldBack n.val ++ [c])
        crcAcc := (heldBack n.val ++ [c]).foldl (crcUpdate p) s.crcAcc
        count := s.count + BitVec.ofNat 64 (n.val + 1) } := by
  rw [seMismatch_eq_scanByte hs hc, scanByte_seekEnd p c s n hs, if_pos hc]

/-- Settles O44: the two matching arms of SEEK_END. -/
theorem seekEndMatchesMoveScanOnly : Obligations.SeekEndMatchesMoveScanOnly := by
  intro s n c hs
  rw [← endByte_eq n.val n.isLt]
  refine ⟨fun m hm hc => ?_, fun hn hc => ?_⟩
  · exact congrArg _ (seMatch_of_eq hs hm hc)
  · subst hc
    exact congrArg _ (seMatchLast_of_eq hs hn)

/-- Settles O48: EMIT is unconditional, so its meaning in every state is R230's pseudocode unfolded. -/
theorem emitFoldsPushesCounts : Obligations.EmitFoldsPushesCounts := fun _ _ => rfl

/-- Settles O45: what the mismatch arm emits is the held-back prefix of END and then the byte. -/
theorem seekEndMismatchEmitsHeldBytes : Obligations.SeekEndMismatchEmitsHeldBytes := by
  rintro s n c _ hs hc rfl
  rw [← endByte_eq n.val n.isLt] at hc
  rw [← heldBack_eq n.val n.isLt]
  exact congrArg _ (seMismatch_of_ne hs hc s.params)

/-! ### The checksum bytes (R236) -/

theorem rcByte_of_lt {s : State} {n m : Fin 5} (hs : s.scan = .readCksum n) (hm : m.val = n.val + 1) (c : Byte) :
    rcByte c s = { s with stored := (s.stored <<< 8) ||| c.setWidth 32, scan := .readCksum m } := by
  have h4 : n.val < 4 := by omega
  simp [rcByte, hs, h4, ← hm]

/-- Settles O46: the byte is shifted into STORED, and the terminal state completes. -/
theorem checksumByteShiftsIntoStored : Obligations.ChecksumByteShiftsIntoStored := by
  refine fun s => ⟨fun n m c hs hm => ?_, fun hs hen => ?_⟩
  · exact ⟨_, toNat_shiftLeft_or_setWidth s.stored c, congrArg _ (rcByte_of_lt hs hm c)⟩
  · exact ⟨_, exec_decodeStep_complete hen (.inl hs), rfl, rfl, rfl⟩

end Sys2Proof.Machine
end

section
/-! PROOFS. The reset input (70_reset_and_hazards.md R310). -/

namespace Sys2Proof.Machine

/-- What the port reads does not depend on the buffer, the streams, the turns or the model's own outputs, in which
the reset input's state alone differs from the machine after reset. -/
@[simp] theorem portRead_applyReset (s : State) (reg : BitVec 8) : portRead (applyReset s) reg = 0 := by
  have hsame : portRead (applyReset s) reg = portRead (State.resetFor s.params) reg := rfl
  rw [hsame, portRead_resetFor]

theorem exec_reset (s : State) : exec .reset s = .next (applyReset s) := rfl

/-- The host's reset turn runs RESET whatever BUSY is (R310). -/
theorem step_reset {s : State} {rest : List Turn} (h : s.turns = .host .reset :: rest) :
    step s = .next (applyReset { s with turns := rest }) := by
  rw [step_host h]
  exact exec_reset _

/-- Settles O8: the reset input's step is RESET, after which every register reads 0 and the idle engine's turn only
passes. -/
theorem resetInputClearsEveryRegister : Obligations.ResetInputClearsEveryRegister := by
  intro s rest hturn
  have hidle : step { applyReset { s with turns := rest } with turns := [] } =
      .next { applyReset { s with turns := rest } with turns := [] } := step_engine_idle (.inr ⟨rfl, rfl⟩) rfl
  exact ⟨applyReset { s with turns := rest }, step_reset hturn, exec_reset _, portRead_applyReset _,
    applyReset_busy _, applyReset_done _, applyReset_mem _, applyReset_source _, applyReset_sink _,
    applyReset_turns _, hidle⟩

end Sys2Proof.Machine
end

section
/-! PROOFS. The encoder and the decoder undo each other (30_encoding.md R91 to R93). -/

namespace Sys2Proof

/-! ### A word and its two fields -/

theorem toNat_append_eq {n m : Nat} (x : BitVec n) (y : BitVec m) : (x ++ y).toNat = x.toNat * 2 ^ m + y.toNat := by
  rw [BitVec.toNat_append, ← Nat.shiftLeft_add_eq_or_of_lt y.isLt, Nat.shiftLeft_eq]

theorem rsvdField_append (rsvd : BitVec 28) (opcode : BitVec 4) : rsvdField (rsvd ++ opcode) = rsvd := by
  have := opcode.isLt
  apply BitVec.eq_of_toNat_eq
  rw [rsvdField_toNat, toNat_append_eq]
  omega

theorem opcodeField_append (rsvd : BitVec 28) (opcode : BitVec 4) : opcodeField (rsvd ++ opcode) = opcode := by
  have := opcode.isLt
  apply BitVec.eq_of_toNat_eq
  rw [opcodeField_toNat, toNat_append_eq]
  omega

/-- No bit of a word lies outside its two fields. -/
theorem fields_append (w : Word32) : rsvdField w ++ opcodeField w = w := by
  apply BitVec.eq_of_toNat_eq
  rw [toNat_append_eq, rsvdField_toNat, opcodeField_toNat]
  omega

/-! ### The rows with operands (R92) -/

theorem decodeCommand_reserved67 : ∀ low : BitVec 1, decodeCommand ((0x3 : BitVec 31) ++ low) = .reserved67 low := by
  decide

theorem decodeCommand_reserved8F : ∀ low : BitVec 3, decodeCommand ((0x1 : BitVec 29) ++ low) = .reserved8F low := by
  decide

theorem decodeCommand_reservedHigh {rsvd : BitVec 28} (h : rsvd ≠ 0) (opcode : BitVec 4) :
    decodeCommand (rsvd ++ opcode) = .reservedHigh rsvd opcode := by
  rw [decodeCommand, rsvdField_append, opcodeField_append, if_neg h]

/-- Settles O1, row by row: a row without operands has one word, and the rows with operands keep them in its fields. -/
theorem decodeOfEncodeIsIdentity : Obligations.DecodeOfEncodeIsIdentity := by
  intro i w hwf hw
  cases i with
  | nop | capacity | validate | encode | decode | reserved5 => cases hw; decide
  | reserved67 low => cases hw; exact decodeCommand_reserved67 low
  | reserved8F low => cases hw; exact decodeCommand_reserved8F low
  | reservedHigh rsvd opcode =>
    cases hw
    exact decodeCommand_reservedHigh (by simpa [Instr.wellFormed] using hwf) opcode
  | _ => cases hw

/-- The sixteen words of the exact rows, those with RSVD = 0. -/
theorem encode_decodeCommand_exact :
    ∀ n < 16, encode (decodeCommand (BitVec.ofNat 32 n)) = some (BitVec.ofNat 32 n) := by
  decide

theorem encode_decodeCommand (w : Word32) : encode (decodeCommand w) = some w := by
  by_cases h : rsvdField w = 0
  · have hlt : w.toNat < 16 := by rw [rsvdField_eq_zero_iff] at h; omega
    simpa using encode_decodeCommand_exact w.toNat hlt
  · rw [decodeCommand, if_neg h]
    exact congrArg some (fields_append w)

/-- Settles O2: the decoded row is well formed, and its word is the one decoded. -/
theorem encodeOfDecodeIsIdentity : Obligations.EncodeOfDecodeIsIdentity :=
  fun w => ⟨decodeCommand_wellFormed w, encode_decodeCommand w⟩

/-- Settles O4: nine words of R92's table, each evaluated. -/
theorem tableWordsDecodeToTheirRows : Obligations.TableWordsDecodeToTheirRows := by
  unfold Obligations.TableWordsDecodeToTheirRows
  decide

end Sys2Proof
end

section
/-! PROOFS. The register port: the packed words, and the registers that a host can read but not write (10_state.md R28,
R43, R44; 30_encoding.md R96, R98). -/

namespace Sys2Proof.Machine

/-! ### The packed words as numbers -/

/-- Fields that do not overlap are joined by `or` as by addition. -/
theorem or_eq_add_of_dvd {k a b : Nat} (ha : 2 ^ k ∣ a) (hb : b < 2 ^ k) : a ||| b = a + b := by
  obtain ⟨c, rfl⟩ := ha
  exact (Nat.two_pow_add_eq_or_of_lt hb c).symm

theorem stageBit_le (x : Stage) : stageBit x ≤ 1 := by cases x <;> decide

theorem opcodeBits_le (o : Opcode) : opcodeBits o ≤ 4 := by cases o <;> decide

theorem resultBits_le (r : ResultCode) : resultBits r ≤ 6 := by cases r <;> decide

theorem statusWord_toNat (s : State) : (statusWord s).toNat =
    stageBit s.stage * 2 ^ 11 + opcodeBits s.op * 2 ^ 8 + resultBits s.result * 2 ^ 4 + s.done.toNat * 2 +
      s.busy.toNat := by
  have hstage := stageBit_le s.stage
  have hop := opcodeBits_le s.op
  have hresult := resultBits_le s.result
  have hdone := s.done.toNat_le
  have hbusy := s.busy.toNat_le
  simp (disch := omega) only [statusWord, BitVec.toNat_or, BitVec.toNat_shiftLeft, BitVec.toNat_ofNat,
    Nat.shiftLeft_eq, Nat.mod_eq_of_lt, or_eq_add_of_dvd (k := 11), or_eq_add_of_dvd (k := 8),
    or_eq_add_of_dvd (k := 4), or_eq_add_of_dvd (k := 1), pow_one]

theorem scanProgress_le (x : ScanState) : scanProgress x ≤ 4 := by
  cases x with
  | seekStart n | seekEnd n => exact n.isLt.le
  | readCksum n => exact Nat.le_of_lt_succ n.isLt

theorem scanPhase_le (x : ScanState) : scanPhase x ≤ 2 := by cases x <;> simp [scanPhase]

theorem scanWord_toNat (s : State) : (scanWord s).toNat = scanProgress s.scan * 16 + scanPhase s.scan := by
  have hprogress := scanProgress_le s.scan
  have hphase := scanPhase_le s.scan
  simp (disch := omega) only [scanWord, BitVec.toNat_or, BitVec.toNat_shiftLeft, BitVec.toNat_ofNat,
    Nat.shiftLeft_eq, Nat.mod_eq_of_lt, or_eq_add_of_dvd (k := 4), Nat.reducePow]

theorem frStateWord_toNat (s : State) : (frStateWord s).toNat = s.frBits.val * 256 + s.frShift.toNat := by
  have hbits := s.frBits.isLt
  have hshift := s.frShift.isLt
  rw [frStateWord, toNat_shiftLeft_or_setWidth, BitVec.toNat_ofNat]
  omega

theorem asmWord_toNat (s : State) : (asmWord s).toNat = s.asCnt.toNat * 256 + s.asByte.toNat := by
  have hcnt := s.asCnt.isLt
  have hbyte := s.asByte.isLt
  rw [asmWord, toNat_shiftLeft_or_setWidth, BitVec.toNat_setWidth]
  omega

/-! ### What the port reads -/

theorem portRead_status_toNat (s : State) : (portRead s 0x09).toNat = (statusWord s).toNat :=
  BitVec.toNat_setWidth_of_le (by decide)

theorem portRead_scan_toNat (s : State) : (portRead s 0x0A).toNat = (scanWord s).toNat :=
  BitVec.toNat_setWidth_of_le (by decide)

theorem portRead_frState_toNat (s : State) : (portRead s 0x17).toNat = (frStateWord s).toNat :=
  BitVec.toNat_setWidth_of_le (by decide)

theorem portRead_asm_toNat (s : State) : (portRead s 0x18).toNat = (asmWord s).toNat :=
  BitVec.toNat_setWidth_of_le (by decide)

/-- The register numbers of R43. -/
theorem portRead_unassigned {reg : BitVec 8} (s : State)
    (h : (5 ≤ reg.toNat ∧ reg.toNat ≤ 7) ∨ (0x0B ≤ reg.toNat ∧ reg.toNat ≤ 0x0F) ∨ 0x19 ≤ reg.toNat) :
    portRead s reg = 0 := by
  unfold portRead
  split
  -- the sixteen numbers that have a register, then the rest
  iterate 16 omega
  rfl

theorem portWrite_of_ge {reg : BitVec 8} (h : 5 ≤ reg.toNat) (data : Word64) (s : State) :
    portWrite reg data s = s := by
  unfold portWrite
  split
  · rfl
  · split
    iterate 5 omega
    rfl

/-- Settles O12: the layout of the word, and the largest value of each field. -/
theorem statusWordLayout : Obligations.StatusWordLayout := fun s =>
  ⟨(portRead_status_toNat s).trans (statusWord_toNat s), stageBit_le _, opcodeBits_le _, resultBits_le _⟩

/-- The thirteen words of R98. -/
theorem scanWord_reachable (x : ScanState) : scanProgress x * 16 + scanPhase x ∈
    [0x00, 0x10, 0x20, 0x30, 0x01, 0x11, 0x21, 0x31, 0x02, 0x12, 0x22, 0x32, 0x42] := by
  cases x with
  | seekStart n | seekEnd n | readCksum n => revert n; decide

/-- Settles O13: the layout of the word, evaluated at each state of the scanner. -/
theorem scanWordIsReachable : Obligations.ScanWordIsReachable := by
  intro s
  rw [portRead_scan_toNat, scanWord_toNat]
  exact ⟨rfl, scanWord_reachable s.scan⟩

/-! ### The transactions -/

/-- A port read changes the model's own portOut only (R45). -/
theorem step_read {s : State} {reg : BitVec 8} {rest : List Turn} (h : s.turns = .host (.read reg) :: rest) :
    step s = .next { s with turns := rest, portOut := portRead s reg } := by
  rw [step_host h]
  rfl

/-- A write to a register that is neither a configuration register nor CMD is ignored. -/
theorem step_write_ignored {s : State} {reg : BitVec 8} {data : Word64} {rest : List Turn}
    (h : s.turns = .host (.write reg data) :: rest) (hr : reg ≠ cmdReg) (h5 : 5 ≤ reg.toNat) :
    step s = .next { s with turns := rest } := by
  rw [step_write h hr, portWrite_of_ge h5]

theorem ne_cmdReg_of_toNat_ne {reg : BitVec 8} (h : reg.toNat ≠ 8) : reg ≠ cmdReg := by
  rintro rfl
  exact h rfl

/-- Settles O10: no register stands at such a number. -/
theorem unassignedRegistersReadZeroIgnoreWrites : Obligations.UnassignedRegistersReadZeroIgnoreWrites := by
  refine fun s reg rest hreg => ⟨fun hturn => ?_, fun data hturn => ?_⟩
  · rw [step_read hturn, portRead_unassigned s hreg]
  · exact step_write_ignored hturn (ne_cmdReg_of_toNat_ne (by omega)) (by omega)

/-- Settles O11: such a write is ignored, and a read gives the register, a narrow one zero-extended. -/
theorem readOnlyRegistersIgnoreWrites : Obligations.ReadOnlyRegistersIgnoreWrites := by
  refine fun s reg rest => ⟨fun hreg data hturn => ?_, fun hturn => ⟨portRead s reg, step_read hturn, rfl, ?_⟩⟩
  · have hnum : reg.toNat = 9 ∨ reg.toNat = 10 ∨ (16 ≤ reg.toNat ∧ reg.toNat ≤ 24) := by
      rcases hreg with rfl | rfl | h
      · exact .inl rfl
      · exact .inr (.inl rfl)
      · exact .inr (.inr h)
    exact step_write_ignored hturn (ne_cmdReg_of_toNat_ne (by omega)) (by omega)
  · have hext : ∀ x : Word32, (x.setWidth 64).toNat = x.toNat := fun x => BitVec.toNat_setWidth_of_le (by decide)
    refine ⟨?_, ?_, ?_, ?_, ?_, ?_, ?_, ?_, ?_, ?_, ?_, ?_, ?_, ?_, ?_, ?_, ?_⟩ <;> rintro rfl
    · exact hext s.width
    · exact hext s.height
    · exact hext s.channels
    · exact hext s.depth
    · rfl
    · rfl
    · rfl
    · rfl
    · rfl
    · exact hext s.cksum
    · exact hext s.stored
    · rfl
    · rfl
    · exact hext s.crcAcc
    · rfl
    · rw [portRead_frState_toNat, frStateWord_toNat]
    · rw [portRead_asm_toNat, asmWord_toNat]

end Sys2Proof.Machine
end

section
/-! PROOFS. The turns: what each action of the host is as a step, which instruction a turn runs, and which moves the host
does not have (10_state.md R26; 20_memory.md R60, R71; 30_encoding.md R90, R105, R106; 70_reset_and_hazards.md R320). -/

namespace Sys2Proof.Machine

/-! ### The host's turns -/

section
variable {s : State} {rest : List Turn}

theorem step_buf {offset : Nat} {bytes : List Byte} (h : s.turns = .host (.buf offset bytes) :: rest) :
    step s = hostBuffer (decide (offset + bytes.length ≤ s.mem.size))
      { s with turns := rest, mem := s.mem.writeBytes offset bytes } { s with turns := rest } := by
  rw [step_host h]; rfl

theorem step_bufRead {offset : Nat} (h : s.turns = .host (.bufRead offset) :: rest) :
    step s = hostBuffer (decide (offset < s.mem.size)) { s with turns := rest } { s with turns := rest } := by
  rw [step_host h]; rfl

theorem step_attach {bytes : List Byte} (h : s.turns = .host (.attach bytes) :: rest) :
    step s = hostBuffer true { s with turns := rest, mem := Memory.ofBytes bytes } { s with turns := rest } := by
  rw [step_host h]; rfl

theorem step_src {bytes : List Byte} (h : s.turns = .host (.src bytes) :: rest) :
    step s = .next { s with turns := rest, source := s.source ++ bytes } := by
  rw [step_host h]; rfl

theorem step_srcDrop {count : Nat} (h : s.turns = .host (.srcDrop count) :: rest) :
    step s = if s.busy then .refused .sourceTakenWhileBusy
      else .next { s with turns := rest, source := s.source.drop count } := by
  rw [step_host h]; rfl

theorem step_sinkRead (h : s.turns = .host .sinkRead :: rest) : step s = .next { s with turns := rest } := by
  rw [step_host h]; rfl

theorem step_sinkClear (h : s.turns = .host .sinkClear :: rest) :
    step s = .next { s with turns := rest, sink := [] } := by
  rw [step_host h]; rfl

theorem step_wait (h : s.turns = .host .wait :: rest) : step s = .next (pollStatus { s with turns := rest }) := by
  rw [step_host h]; rfl

end

theorem hostBuffer_idle {s : State} (hb : s.busy = false) (t : State) : hostBuffer true t s = .next t := by
  simp [hostBuffer, hb]

/-- An access to the buffer has a next state only while idle and inside the attached buffer. -/
theorem hostBuffer_next_iff {ok : Bool} {s t u : State} :
    hostBuffer ok t s = .next u ↔ s.busy = false ∧ ok = true ∧ u = t := by
  unfold hostBuffer
  cases s.busy <;> cases ok <;> simp [eq_comm]

theorem hostBuffer_refused_iff {ok : Bool} {s t : State} :
    (∃ r, hostBuffer ok t s = .refused r) ↔ s.busy = true ∨ ok = false := by
  unfold hostBuffer
  cases s.busy <;> cases ok <;> simp

/-- Settles O14: the streams take the host's bytes, and a buffer written while idle reads back as written. -/
theorem hostMovesBufferAndStreams : Obligations.HostMovesBufferAndStreams := by
  refine fun s rest bytes => ⟨step_src, step_sinkClear, fun hturn hb => ?_, fun offset hturn hb hwf hfit => ?_⟩
  · refine ⟨Memory.ofBytes bytes, ?_, Memory.ofBytes_size bytes, fun k hk => ?_⟩
    · rw [step_attach hturn, hostBuffer_idle (s := { s with turns := rest }) hb]
    · rw [Memory.ofBytes_read bytes hk, List.getD_eq_getElem _ _ hk]
  · refine ⟨s.mem.writeBytes offset bytes, ?_, Memory.writeBytes_size _ _ _, fun k hk => ?_, fun a ha => ?_⟩
    · rw [step_buf hturn, decide_eq_true hfit, hostBuffer_idle (s := { s with turns := rest }) hb]
    · rw [Memory.writeBytes_read hwf bytes hfit hk, List.getD_eq_getElem _ _ hk]
    · rcases ha with hbefore | hafter
      · exact Memory.writeBytes_read_before hwf hbefore bytes
      · exact Memory.writeBytes_read_after hwf bytes hafter

/-! ### Which instruction a turn runs -/

/-- DATA[31:0] as a number (R91). -/
theorem commandWord_eq_ofNat (data : Word64) : commandWord data = BitVec.ofNat 32 (data.toNat % 2 ^ 32) := by
  apply BitVec.eq_of_toNat_eq
  simp [commandWord]

theorem step_withFetchWord (s : State) (nbits w : Nat) :
    step (s.withFetchWord nbits w) = exec (decodeCommand (commandWord (tableData nbits w))) s :=
  step_write_cmd (s := s.withFetchWord nbits w) rfl

/-- Settles O5: a write to CMD runs its word, and withFetchWord places such a write. -/
theorem stepRunsDecodedCommand : Obligations.StepRunsDecodedCommand := by
  refine ⟨fun s data rest hturn => ?_, fun s nbits w hn => ⟨_, if_pos hn, step_withFetchWord s nbits w⟩⟩
  rw [← commandWord_eq_ofNat]
  exact step_write_cmd hturn

/-- The engine's turn runs the step STATUS selects. -/
theorem step_engine_run {s : State} {rest : List Turn} {i : Instr}
    (h : s.turns = .engine :: rest ∨ (s.turns = [] ∧ rest = []))
    (hi : engineInstr { s with turns := rest } = some i) : step s = exec i { s with turns := rest } := by
  rw [step_engine h, hi]

/-- Settles O6: the step STATUS selects, none while idle, and RESET on the reset input. -/
theorem stepRunsSelectedEngineStep : Obligations.StepRunsSelectedEngineStep := by
  refine ⟨fun s rest hturn => ⟨fun hen => ?_, fun hen => ?_, fun hen => ?_, step_engine_idle hturn⟩, fun s rest => ?_⟩
  · exact step_engine_run hturn (engineInstr_check hen)
  · exact step_engine_run hturn (engineInstr_encode hen)
  · exact step_engine_run hturn (engineInstr_decode hen)
  · exact step_reset

/-! ### Refusals -/

theorem checkBody_ne_refused (p : Params) (s : State) (r : Refusal) : checkBody p s ≠ .refused r := by
  unfold checkBody
  split
  · cases s.op <;> nofun
  · nofun

theorem encodeBody_ne_refused (p : Params) (s : State) (r : Refusal) : encodeBody p s ≠ .refused r := by
  unfold encodeBody encodeSample
  split
  · nofun
  · split
    · nofun
    · cases refill p s with
      | hold | endOfStream => nofun
      | byte b t => dsimp only; cases embedStep t.cursor.toNat (nextFrameBit t) t <;> nofun

theorem decodeBody_ne_refused (p : Params) (s : State) (r : Refusal) : decodeBody p s ≠ .refused r := by
  unfold decodeBody
  split
  · nofun
  · split
    · nofun
    · cases readSample s s.cursor.toNat <;> nofun

theorem exec_ne_refused (i : Instr) (s : State) (r : Refusal) : exec i s ≠ .refused r := by
  cases i with
  | check =>
    by_cases hen : CheckEnabled s
    · rw [exec_check_enabled hen]; exact checkBody_ne_refused _ _ r
    · rw [exec_check_disabled hen]; nofun
  | encodeStep =>
    by_cases hen : EncodeEnabled s
    · rw [exec_encodeStep_enabled hen]; exact encodeBody_ne_refused _ _ r
    · rw [exec_encodeStep_disabled hen]; nofun
  | decodeStep =>
    by_cases hen : DecodeEnabled s
    · rw [exec_decodeStep_enabled hen]; exact decodeBody_ne_refused _ _ r
    · rw [exec_decodeStep_disabled hen]; nofun
  | encodeTruncate => simp only [exec, execEncodeTruncate]; split <;> nofun
  | framerPull => simp only [exec, execFramerPull]; cases framerPull s.params s <;> nofun
  | embedStep k bit => simp only [exec, execEmbedStep]; cases embedStep k.toNat bit s <;> nofun
  | _ => nofun

theorem step_engine_ne_refused {s : State} {rest : List Turn}
    (h : s.turns = .engine :: rest ∨ (s.turns = [] ∧ rest = [])) (r : Refusal) : step s ≠ .refused r := by
  rw [step_engine h]
  cases engineInstr { s with turns := rest } with
  | none => nofun
  | some i => exact exec_ne_refused i _ r

theorem step_write_ne_refused {s : State} {reg : BitVec 8} {data : Word64} {rest : List Turn}
    (h : s.turns = .host (.write reg data) :: rest) (r : Refusal) : step s ≠ .refused r := by
  by_cases hr : reg = cmdReg
  · subst hr
    rw [step_write_cmd h]
    exact exec_ne_refused _ _ r
  · rw [step_write h hr]
    nofun

/-- R320, I9, I10: the refused turns are the host's accesses to what it may not touch. -/
theorem step_refused_iff (s : State) : (∃ r, step s = .refused r) ↔ hostOversteps s = true := by
  have hnever : (∀ r, step s ≠ .refused r) → ((∃ r, step s = .refused r) ↔ false = true) := fun h => by simp [h]
  unfold hostOversteps
  cases hturns : s.turns with
  | nil => exact hnever (step_engine_ne_refused (.inr ⟨hturns, rfl⟩))
  | cons turn rest =>
    cases turn with
    | engine => exact hnever (step_engine_ne_refused (.inl hturns))
    | host a =>
      cases a with
      | buf offset bytes => simp [step_buf hturns, hostBuffer_refused_iff]
      | bufRead offset => simp [step_bufRead hturns, hostBuffer_refused_iff]
      | attach bytes => simp [step_attach hturns, hostBuffer_refused_iff]
      | srcDrop count => rw [step_srcDrop hturns]; cases s.busy <;> simp
      | write reg data => exact hnever (step_write_ne_refused hturns)
      | read reg => exact hnever (by rw [step_read hturns]; nofun)
      | src bytes => exact hnever (by rw [step_src hturns]; nofun)
      | sinkRead => exact hnever (by rw [step_sinkRead hturns]; nofun)
      | sinkClear => exact hnever (by rw [step_sinkClear hturns]; nofun)
      | wait => exact hnever (by rw [step_wait hturns]; nofun)
      | reset => exact hnever (by rw [step_reset hturns]; nofun)

/-- Settles O59: no instruction refuses, so a refusal comes from the host's move. -/
theorem refusedOnlyWhenHostOversteps : Obligations.RefusedOnlyWhenHostOversteps :=
  ⟨step_refused_iff, exec_ne_refused⟩

end Sys2Proof.Machine
end

section
/-! PROOFS. Which command a write to CMD starts (40_command_and_capacity.md R130, R325). -/

namespace Sys2Proof.Machine

theorem startCommand_idle {s : State} (hb : s.busy = false) (p : Params) (o : Opcode) :
    startCommand p o s = beginCommand p o s := by simp [startCommand, hb]

theorem startCommand_busy {s : State} (hb : s.busy = true) (p : Params) (o : Opcode) : startCommand p o s = s :=
  if_pos hb

/-- Settles O16: each of the four starts its own command. -/
theorem commandWordStartsCommand : Obligations.CommandWordStartsCommand := by
  intro s i o hmem hb
  have hexec : exec i s = .next (startCommand s.params o s) := by
    simp only [List.mem_cons, Prod.mk.injEq, List.not_mem_nil, or_false] at hmem
    rcases hmem with ⟨rfl, rfl⟩ | ⟨rfl, rfl⟩ | ⟨rfl, rfl⟩ | ⟨rfl, rfl⟩ <;> rfl
  rw [hexec, startCommand_idle hb]
  rfl

/-- Settles O18: a word starts a command, is refused or is ignored, and while BUSY it is ignored. -/
theorem commandIgnoredWhileBusy : Obligations.CommandIgnoredWhileBusy := by
  rintro s i hb (hword | ⟨data, rfl⟩)
  · cases i with
    | nop => rfl
    | capacity | validate | encode | decode => exact congrArg _ (startCommand_busy hb _ _)
    | reserved5 | reserved67 | reserved8F | reservedHigh => exact congrArg _ (refuseCommand_busy hb)
    | _ => cases hword
  · exact congrArg _ (acceptWord_busy hb _ _)

/-- The decoder and the acceptance rule read a legal word as one and the same command (R92, R130). -/
theorem exec_decodeCommand_legal {w : Word32} (h : w.toNat ≤ 4) (s : State) :
    exec (decodeCommand w) s = .next (acceptWord s.params w s) := by
  cases hb : s.busy
  · obtain ⟨n, hn, rfl⟩ : ∃ n ≤ 4, w = BitVec.ofNat 32 n := ⟨w.toNat, h, by simp⟩
    by_cases h0 : n = 0
    · subst h0
      exact congrArg _ (acceptWord_zero s.params s).symm
    · rw [acceptWord_legal hb _ (by simp; omega) (by simp; omega)]
      have hstart : exec (decodeCommand (BitVec.ofNat 32 n)) s =
          .next (startCommand s.params (opcodeOf (BitVec.ofNat 32 n)) s) := by
        interval_cases n
        · exact absurd rfl h0
        all_goals rfl
      rw [hstart, startCommand_idle hb]
  · rw [acceptWord_busy hb]
    exact commandIgnoredWhileBusy s _ hb (.inl (by rw [encode_decodeCommand]; rfl))

/-- The decoded word does what the acceptance rule says of the word. -/
theorem exec_decodeCommand_eq_acceptWord (w : Word32) (s : State) :
    exec (decodeCommand w) s = .next (acceptWord s.params w s) := by
  by_cases hlegal : isLegalCommand w = true
  · have hfields := (isLegalCommand_iff w).1 hlegal
    exact exec_decodeCommand_legal (by omega) s
  · have hfields := mt (isLegalCommand_iff w).2 hlegal
    rw [exec_reserved (isReserved_of_not_legal (by simpa using hlegal))]
    cases hb : s.busy
    · rw [refuseCommand_idle hb, acceptWord_illegal hb _ (by omega)]
    · rw [refuseCommand_busy hb, acceptWord_busy hb]

/-- Settles O19: ACCEPT is the acceptance rule, and so is the decoded word. -/
theorem acceptRunsDecodedCommand : Obligations.AcceptRunsDecodedCommand := by
  refine fun s data => ⟨acceptWord s.params (commandWord data) s, rfl, ?_⟩
  rw [← commandWord_eq_ofNat, exec_decodeCommand_eq_acceptWord]

end Sys2Proof.Machine
end

section
/-! PROOFS. GEOM_OK on its own, and the CHECK step of VALIDATE and ENCODE (40_command_and_capacity.md R131, R134, R136,
R138). -/

namespace Sys2Proof.Machine

theorem geometryOk_eq_decide (p : Params) (s : State) : geometryOk p s = decide (GeometryLegal p s) := by
  rw [Bool.eq_iff_iff, geometryOk_iff, decide_eq_true_iff]

/-- Settles O22: the flag is the geometry check, which is R131 in numbers. -/
theorem geomOkReportsCheck : Obligations.GeomOkReportsCheck := by
  intro s
  rw [← geometryOk_eq_decide]
  rfl

theorem exec_check_validate {s : State} (hen : CheckEnabled s) (ho : s.op = .validate)
    (hg : GeometryLegal s.params s) :
    exec .check s = .next (complete (if exceedsCapacity s then .capacityExceeded else .ok)
      { s with capacity := BitVec.ofNat 64 (capacityBytes s) }) := by
  rw [exec_check_enabled hen]
  cases he : exceedsCapacity s <;> simp [checkBody, (geometryOk_iff _ _).2 hg, ho, he]

theorem exec_check_encode {s : State} (hen : CheckEnabled s) (ho : s.op = .encode) (hg : GeometryLegal s.params s) :
    exec .check s = .next (if exceedsCapacity s
      then complete .capacityExceeded { s with capacity := BitVec.ofNat 64 (capacityBytes s) }
      else { s with capacity := BitVec.ofNat 64 (capacityBytes s), stage := .run }) := by
  rw [exec_check_enabled hen]
  simp [checkBody, (geometryOk_iff _ _).2 hg, ho]

/-- The capacity test reads CAP as the CAPACITY register holds it: nothing of the floor is lost (R137). -/
theorem exceedsCapacity_iff_register {p : Params} {s : State} (hg : GeometryLegal p s) :
    exceedsCapacity s = true ↔ (BitVec.ofNat 64 (capacityBytes s)).toNat < s.payloadLen.toNat + 12 := by
  rw [exceedsCapacity_iff, hg.capacity_toNat]

/-- Settles O24: the format first, then the exact test. -/
theorem checkOfValidate : Obligations.CheckOfValidate := by
  refine fun s hen ho => ⟨exec_check_not_geometryLegal hen, fun hg => ?_⟩
  refine ⟨_, hg.capacity_toNat, fun hgt => ?_, fun hle => ?_⟩
  · rw [exec_check_validate hen ho hg, if_pos ((exceedsCapacity_iff_register hg).2 hgt)]
    rfl
  · rw [exec_check_validate hen ho hg, if_neg (mt (exceedsCapacity_iff_register hg).1 (by omega))]
    rfl

/-- Settles O25: as for VALIDATE, but a payload that fits enters STAGE RUN. -/
theorem checkOfEncode : Obligations.CheckOfEncode := by
  refine fun s hen ho => ⟨exec_check_not_geometryLegal hen, fun hg => ?_⟩
  refine ⟨_, hg.capacity_toNat, fun hgt => ?_, fun hle => ?_⟩
  · rw [exec_check_encode hen ho hg, if_pos ((exceedsCapacity_iff_register hg).2 hgt)]
    rfl
  · rw [exec_check_encode hen ho hg, if_neg (mt (exceedsCapacity_iff_register hg).1 (by omega))]

end Sys2Proof.Machine
end

section
/-! PROOFS. The checksum rounds and the framer (41_framer.md R153, R156, R157; 30_encoding.md R99). -/

namespace Sys2Proof.Machine

/-! ### CRC_UPDATE (R153) -/

/-- One round on numbers: doubled modulo 2^32, the polynomial added when bit 31 was 1. -/
def crcRoundNat (poly v : Nat) : Nat := if 2 ^ 31 ≤ v then (2 * v % 2 ^ 32) ^^^ poly else 2 * v % 2 ^ 32

theorem crcRound_toNat (p : Params) (c : Word32) : (crcRound p c).toNat = crcRoundNat p.crcPoly.toNat c.toNat := by
  have hdouble : (c <<< 1).toNat = 2 * c.toNat % 2 ^ 32 := by
    rw [BitVec.toNat_shiftLeft, Nat.shiftLeft_eq, pow_one, Nat.mul_comm]
  unfold crcRound crcRoundNat
  rw [BitVec.msb_eq_decide]
  by_cases h : 2 ^ 31 ≤ c.toNat
  · rw [if_pos (by simpa using h), if_pos h, BitVec.toNat_xor, hdouble]
  · rw [if_neg (by simpa using h), if_neg h, hdouble]

theorem crcRounds_toNat (p : Params) (n : Nat) (c : Word32) :
    (crcRounds p n c).toNat = (crcRoundNat p.crcPoly.toNat)^[n] c.toNat := by
  induction n generalizing c with
  | zero => rfl
  | succ n ih => rw [crcRounds, ih, crcRound_toNat, Function.iterate_succ_apply]

/-- Settles O27: eight rounds on the register with the byte added at its top. -/
theorem crcUpdateIsEightRounds : Obligations.CrcUpdateIsEightRounds := by
  refine fun s c b => ⟨crcUpdate s.params c b, rfl, ?_⟩
  have htop : (c ^^^ (b.setWidth 32 <<< 24)).toNat = c.toNat ^^^ (b.toNat * 2 ^ 24) := by
    have := b.isLt
    rw [BitVec.toNat_xor, BitVec.toNat_shiftLeft, BitVec.toNat_setWidth, Nat.shiftLeft_eq,
      Nat.mod_eq_of_lt (by omega), Nat.mod_eq_of_lt (by omega)]
  rw [← htop]
  exact crcRounds_toNat s.params 8 _

/-! ### One pull (R157) -/

/-- The byte of a pull goes to primOut (log 9). -/
theorem exec_framerPull_of_pullsByte {s : State} {b : Byte} {crc : Word32} {source : List Byte}
    (h : PullsByte s.params s b crc source) : exec .framerPull s =
      .next { s with frIdx := s.frIdx + 1, crcAcc := crc, source := source, primOut := .byte b } := by
  have hpull := (framerPull_byte_iff s.params s _ b).2 ⟨crc, source, h, rfl⟩
  simp only [exec, execFramerPull, hpull]

/-- Settles O28: the pull of R157's table, with its byte in primOut. -/
theorem framerPullGivesFramedByte : Obligations.FramerPullGivesFramedByte :=
  fun _ _ _ _ h => exec_framerPull_of_pullsByte h

theorem encodeBody_hold {p : Params} {s : State} (hbits : s.frBits.val = 0) (hcursor : s.cursor.toNat ≠ sampleCount s)
    (hidx : s.frIdx.toNat < s.payloadLen.toNat + 12) (hhold : framerPull p s = .hold) : encodeBody p s = .next s := by
  have hrefill : refill p s = .hold := (refill_hold_iff p s).2 ⟨hbits, hhold⟩
  unfold encodeBody encodeSample
  rw [if_neg (mt (framerExhausted_iff s).1 (by omega)), if_neg (mt (samplesExhausted_iff s).1 hcursor), hrefill]

/-- Settles O29: the empty source holds the pull, the held pull holds the loop step, and FR_IDX ≥ M ends the stream. -/
theorem emptySourceHoldsAndPullEnds : Obligations.EmptySourceHoldsAndPullEnds := by
  refine fun s => ⟨fun h4 hlt hsrc => ?_, fun hend => ?_⟩
  · have hhold : framerPull s.params s = .hold := (framerPull_hold_iff _ s).2 ⟨h4, hlt, hsrc⟩
    refine ⟨by simp only [exec, execFramerPull, hhold], fun hbits hcursor => ?_⟩
    by_cases hen : EncodeEnabled s
    · rw [exec_encodeStep_enabled hen]
      exact encodeBody_hold hbits hcursor (by omega) hhold
    · exact exec_encodeStep_disabled hen
  · simp only [exec, execFramerPull, (framerPull_end_iff _ s).2 hend]

/-! ### The whole stream (R99, R158) -/

/-- The framer stands before byte `i` of the framed stream of `payload`: the payload bytes of the first `i` have left the
source and stand folded in CRC_ACC. -/
structure FramerAt (p : Params) (payload rest : List Byte) (i : Nat) (s : State) : Prop where
  index : s.frIdx.toNat = i
  len : s.payloadLen.toNat = payload.length
  crc : s.crcAcc = crcFold p (payload.take (i - 4))
  source : s.source = payload.drop (i - 4) ++ rest

theorem framedStream_length (p : Params) (payload : List Byte) :
    (framedStream p payload).length = payload.length + 12 := by
  simp [framedStream, bigEndian32]

/-! The byte at each index of the framed stream, part by part. -/

section
variable (p : Params) (payload : List Byte) {i : Nat}

theorem framedStream_start (h : i < 4) : (framedStream p payload).getD i 0 = [0x0F, 0x1F, 0x2F, 0xFF].getD i 0 := by
  interval_cases i <;> rfl

theorem framedStream_payload (h4 : 4 ≤ i) (hlt : i < payload.length + 4) :
    (framedStream p payload).getD i 0 = payload.getD (i - 4) 0 := by
  rw [framedStream, List.getD_append _ _ _ _ (by simp; omega), List.getD_append _ _ _ _ (by simp; omega),
    List.getD_append_right _ _ _ _ (by simpa using h4)]
  rfl

theorem framedStream_end (h4 : payload.length + 4 ≤ i) (hlt : i < payload.length + 8) :
    (framedStream p payload).getD i 0 = [0x0E, 0x1E, 0x2E, 0xEE].getD (i - payload.length - 4) 0 := by
  have hidx : i - ([0x0F, 0x1F, 0x2F, 0xFF] ++ payload).length = i - payload.length - 4 := by simp; omega
  rw [framedStream, List.getD_append _ _ _ _ (by simp; omega), List.getD_append_right _ _ _ _ (by simp; omega), hidx]

theorem framedStream_checksum (h8 : payload.length + 8 ≤ i) (hlt : i < payload.length + 12) :
    (framedStream p payload).getD i 0 = checksumByte (crc32 p payload) (i - payload.length - 8) := by
  have hidx : i - ([0x0F, 0x1F, 0x2F, 0xFF] ++ payload ++ [0x0E, 0x1E, 0x2E, 0xEE]).length =
      i - payload.length - 8 := by simp; omega
  rw [framedStream, List.getD_append_right _ _ _ _ (by simp; omega), hidx, bigEndian32,
    List.getD_eq_getElem _ _ (by simp; omega), List.getElem_map, List.getElem_range]

end

theorem crcFold_append_singleton (p : Params) (bytes : List Byte) (b : Byte) :
    crcFold p (bytes ++ [b]) = crcUpdate p (crcFold p bytes) b := List.foldl_concat ..

/-- The pull before byte `i` gives that byte, and a payload byte moves from the source into CRC_ACC. -/
theorem FramerAt.pullsByte {p : Params} {payload rest : List Byte} {i : Nat} {s : State}
    (h : FramerAt p payload rest i s) (hi : i < payload.length + 12) :
    PullsByte p s ((framedStream p payload).getD i 0) (crcFold p (payload.take (i + 1 - 4)))
      (payload.drop (i + 1 - 4) ++ rest) := by
  obtain ⟨hindex, hlen, hcrc, hsource⟩ := h
  unfold PullsByte
  rw [hindex, hlen, hcrc, hsource]
  by_cases h4 : i < 4
  · have hk : i + 1 - 4 = i - 4 := by omega
    rw [hk]
    exact .inl ⟨h4, framedStream_start p payload h4, rfl, rfl⟩
  · by_cases hN : i < payload.length + 4
    · obtain ⟨k, rfl⟩ := Nat.exists_eq_add_of_le' (not_lt.1 h4)
      have hk : k < payload.length := by omega
      have hbyte : (framedStream p payload).getD (k + 4) 0 = payload[k] := by
        rw [framedStream_payload p payload (by omega) hN, Nat.add_sub_cancel, List.getD_eq_getElem _ _ hk]
      have hnext : k + 4 + 1 - 4 = k + 1 := by omega
      refine .inr (.inl ⟨by omega, hN, ?_, ?_⟩)
      · rw [hbyte, hnext, Nat.add_sub_cancel, List.drop_eq_getElem_cons hk, List.cons_append]
      · rw [hbyte, hnext, Nat.add_sub_cancel, ← List.take_concat_get' _ _ hk, crcFold_append_singleton]
    · have htake : ∀ j, i - 4 ≤ j → payload.take j = payload := fun j hj => List.take_of_length_le (by omega)
      have hdrop : ∀ j, i - 4 ≤ j → payload.drop j = [] := fun j hj => List.drop_of_length_le (by omega)
      rw [htake _ le_rfl, hdrop _ le_rfl, htake _ (by omega), hdrop _ (by omega)]
      by_cases h8 : i < payload.length + 8
      · exact .inr (.inr (.inl ⟨by omega, h8, framedStream_end p payload (by omega) h8, rfl, rfl⟩))
      · refine .inr (.inr (.inr ⟨by omega, hi, ?_, rfl, rfl⟩))
        rw [framedStream_checksum p payload (by omega) hi, checksumByte_toNat]
        rfl

/-- A state that has taken what the pull takes stands before the next byte. -/
theorem FramerAt.next {p : Params} {payload rest : List Byte} {i : Nat} {s t : State} (h : FramerAt p payload rest i s)
    (hi : i + 1 < 2 ^ 64) (hindex : t.frIdx = s.frIdx + 1) (hlen : t.payloadLen = s.payloadLen)
    (hcrc : t.crcAcc = crcFold p (payload.take (i + 1 - 4))) (hsource : t.source = payload.drop (i + 1 - 4) ++ rest) :
    FramerAt p payload rest (i + 1) t := by
  have hsi := h.index
  refine ⟨?_, hlen ▸ h.len, hcrc, hsource⟩
  rw [hindex, BitVec.toNat_add, hsi]
  exact Nat.mod_eq_of_lt hi

/-- A run of `k` pulls from byte `i` gives `k` bytes of the framed stream and moves the framer past them; it changes the
framer, CRC_ACC, the source and primOut only. -/
theorem pullBytes_framerAt {payload rest : List Byte} (k : Nat) {i : Nat} {s : State}
    (h : FramerAt s.params payload rest i s) (hk : i + k ≤ payload.length + 12) (hlt : payload.length + 12 < 2 ^ 64) :
    ∃ t, pullBytes k s = some (((framedStream s.params payload).drop i).take k, t) ∧
      FramerAt s.params payload rest (i + k) t ∧
      t.sink = s.sink ∧ t.mem = s.mem ∧ t.cursor = s.cursor ∧ t.count = s.count := by
  induction k generalizing i s with
  | zero => exact ⟨s, by simp [pullBytes], h, rfl, rfl, rfl, rfl⟩
  | succ k ih =>
    have hpull := exec_framerPull_of_pullsByte (h.pullsByte (by omega))
    obtain ⟨t, hrun, hat, hsink, hmem, hcursor, hcount⟩ :=
      ih (s := { s with
            frIdx := s.frIdx + 1, crcAcc := crcFold s.params (payload.take (i + 1 - 4))
            source := payload.drop (i + 1 - 4) ++ rest
            primOut := .byte ((framedStream s.params payload).getD i 0) })
        (h.next (by omega) rfl rfl rfl rfl) (by omega)
    refine ⟨t, ?_, by rwa [Nat.add_right_comm] at hat, hsink, hmem, hcursor, hcount⟩
    have hi : i < (framedStream s.params payload).length := by rw [framedStream_length]; omega
    rw [pullBytes, hpull, List.drop_eq_getElem_cons hi, List.take_succ_cons, ← List.getD_eq_getElem _ 0 hi]
    simp only [hrun]
    rfl

/-- Settles O30: the run of all M pulls, from before byte 0 to past the last. -/
theorem framerGivesFramedStream : Obligations.FramerGivesFramedStream := by
  intro s payload rest hlen hlt hsource hindex hcrc
  have hat : FramerAt s.params payload rest 0 s := ⟨by rw [hindex]; rfl, hlen, hcrc, hsource⟩
  obtain ⟨t, hrun, hend, hframe⟩ := pullBytes_framerAt (payload.length + 12) hat (by omega) hlt
  rw [Nat.zero_add] at hend
  have hsub : payload.length ≤ payload.length + 12 - 4 := by omega
  refine ⟨t, ?_, ?_, ?_, hend.index, hframe⟩
  · rw [hrun, List.drop_zero, List.take_of_length_le (framedStream_length ..).le]
  · rw [hend.source, List.drop_of_length_le hsub, List.nil_append]
  · rw [hend.crc, List.take_of_length_le hsub]

end Sys2Proof.Machine
end

section
/-! PROOFS. The least-significant bit, the embed step and the ENCODE loop step (42_sample_codec.md R180 to R189). -/

namespace Sys2Proof.Machine

/-! ### SET_LSB and GET_LSB (R180, R181) -/

/-- The bit that SET_LSB writes is the one that GET_LSB reads. -/
@[simp] theorem getLsb_setLsb (v : Byte) (bit : BitVec 1) : getLsb (setLsb v bit) = bit := by
  have hbit := bit.isLt
  apply BitVec.eq_of_toNat_eq
  rw [getLsb_toNat, setLsb_toNat]
  omega

theorem exec_getLsb (v : Byte) (s : State) : exec (.getLsb v) s = .next { s with primOut := .bit (getLsb v) } := rfl

/-- Settles O31: the two primitives in arithmetic, and the one undoing the other. -/
theorem lsbPrimitivesWriteAndReadBitZero : Obligations.LsbPrimitivesWriteAndReadBitZero := by
  refine fun s v bit => ⟨⟨setLsb v bit, rfl, setLsb_toNat v bit, ?_⟩, getLsb v, rfl, getLsb_toNat v⟩
  rw [exec_getLsb, getLsb_setLsb]

/-! ### Where EMBED_STEP stops (logs 5, 14) -/

theorem sampleOffset_depth {s : State} (h8 : s.depth.toNat ≠ 8) (h16 : s.depth.toNat ≠ 16) (k : Nat) :
    sampleOffset s k = .error .depthNotLegal := by
  rw [sampleOffset, (sampleAddr_eq_none_iff s k).2 ⟨h8, h16⟩]

theorem sampleOffset_beyond {s : State} {k a : Nat} (ha : sampleAddr s k = some a) (hk : sampleCount s ≤ k) :
    sampleOffset s k = .error .addressOutsideBuffer := by
  rw [sampleOffset, ha]
  exact if_neg (by rw [sampleAddr_lt_bufferLength ha]; omega)

/-- A sample with no offset stops the embed step with the fault of the offset. -/
theorem exec_embedStep_of_offset_error {s : State} {k : Word64} {f : Fault} (h : sampleOffset s k.toNat = .error f)
    (bit : BitVec 1) : exec (.embedStep k bit) s = .fault f := by
  simp only [exec, execEmbedStep, embedStep, readSample, h]

/-- A sample whose offset the attached buffer lacks stops the embed step. -/
theorem exec_embedStep_of_short_buffer {s : State} {k : Word64} {a : Nat} (ha : sampleAddr s k.toNat = some a)
    (hk : k.toNat < sampleCount s) (hsize : s.mem.size ≤ a) (bit : BitVec 1) :
    exec (.embedStep k bit) s = .fault .bufferShorterThanGeometry := by
  have hoffset : sampleOffset s k.toNat = .ok a := (sampleOffset_ok_iff s _ a).2 ⟨ha, hk⟩
  have hread : s.mem.read a = none := if_neg (by omega)
  simp only [exec, execEmbedStep, embedStep, readSample, hoffset, hread]

/-- Settles O33: no offset at another DEPTH, none beyond S, and a buffer without the byte. -/
theorem embedStepStopsOutsideBuffer : Obligations.EmbedStepStopsOutsideBuffer := by
  refine fun s k bit => ⟨fun h8 h16 => ?_, fun hd hk => ?_, fun hd hk hsize => ?_, fun hd hk hsize => ?_⟩
  · exact exec_embedStep_of_offset_error (sampleOffset_depth h8 h16 _) bit
  · obtain ⟨a, ha⟩ : ∃ a, sampleAddr s k.toNat = some a := by
      rcases hd with hd | hd
      · exact ⟨_, (sampleAddr_eq_some_iff ..).2 (.inl ⟨hd, rfl⟩)⟩
      · exact ⟨_, (sampleAddr_eq_some_iff ..).2 (.inr ⟨hd, rfl⟩)⟩
    exact exec_embedStep_of_offset_error (sampleOffset_beyond ha hk) bit
  · exact exec_embedStep_of_short_buffer ((sampleAddr_eq_some_iff ..).2 (.inl ⟨hd, rfl⟩)) hk hsize bit
  · exact exec_embedStep_of_short_buffer ((sampleAddr_eq_some_iff ..).2 (.inr ⟨hd, rfl⟩)) hk hsize bit

/-! ### The ENCODE loop step (R185 to R187) -/

/-- The bit to embed is FR_SHIFT[7]. -/
theorem nextFrameBit_eq (s : State) : nextFrameBit s = BitVec.ofNat 1 (s.frShift.toNat / 128) := by
  apply BitVec.eq_of_toNat_eq
  simp [nextFrameBit, Nat.shiftRight_eq_div_pow]

/-- The loop step embeds where the framer is not exhausted and the refill gives a byte for a sample that is there. -/
theorem exec_encodeStep_embed {s u : State} {b : Byte} {a : Nat} {v : Byte} (hen : EncodeEnabled s)
    (hframer : ¬ (s.frBits.val = 0 ∧ s.frIdx.toNat = s.payloadLen.toNat + 12))
    (hcursor : s.cursor.toNat ≠ sampleCount s) (hrefill : refill s.params s = .byte b u) (hv : SampleHolds u u.cursor.toNat a v) :
    exec .encodeStep s = .next (embedded u a v) := by
  rw [exec_encodeStep_enabled hen, encodeBody, if_neg (mt (framerExhausted_iff s).1 hframer),
    if_neg (mt (samplesExhausted_iff s).1 hcursor), encodeSample_of_refill hrefill hv]

theorem exec_encodeStep_of_held {s : State} {a : Nat} {v : Byte} (hen : EncodeEnabled s) (hbits : 0 < s.frBits.val)
    (hv : SampleHolds s s.cursor.toNat a v) : exec .encodeStep s = .next (embedded s a v) :=
  exec_encodeStep_embed hen (by omega) hv.1.ne (refill_held _ s hbits) hv

/-- A pulled byte has an index below M. -/
theorem PullsByte.index_lt {p : Params} {s : State} {b : Byte} {crc : Word32} {source : List Byte}
    (h : PullsByte p s b crc source) : s.frIdx.toNat < s.payloadLen.toNat + 12 := by
  rcases h with ⟨h, _⟩ | ⟨_, h, _⟩ | ⟨_, h, _⟩ | ⟨_, h, _⟩ <;> omega

theorem exec_encodeStep_of_pull {s : State} {b : Byte} {crc : Word32} {source : List Byte} {a : Nat} {v : Byte}
    (hen : EncodeEnabled s) (hbits : s.frBits.val = 0) (hpull : PullsByte s.params s b crc source)
    (hv : SampleHolds s s.cursor.toNat a v) :
    exec .encodeStep s = .next (embedded
      { s with
        frIdx := s.frIdx + 1, crcAcc := crc, source := source, frShift := b, frBits := 8, count := s.count + 1 }
      a v) := by
  have hidx := hpull.index_lt
  exact exec_encodeStep_embed hen (by omega) hv.1.ne
    ((refill_empty_byte_iff _ s _ b hbits).2 ⟨crc, source, hpull, rfl⟩) hv

/-- Settles O34: the embedded state of a step without a refill. -/
theorem encodeStepEmbedsHeldBit : Obligations.EncodeStepEmbedsHeldBit := by
  intro s a v hen hwf hbits hv
  have hread : s.mem.read a = some v := hv.2.2
  refine ⟨_, ⟨s.frBits.val - 1, by omega⟩, Nat.succ_pred_eq_of_pos hbits, exec_encodeStep_of_held hen hbits hv, ?_⟩
  rw [nextFrameBit_eq]
  exact oneByteWritten_write hwf hread _

/-- Settles O35: the embedded state of a step with a refill. -/
theorem encodeStepRefillsAndEmbeds : Obligations.EncodeStepRefillsAndEmbeds := by
  intro s b crc source a v hen hwf hbits hpull hv
  have hread : s.mem.read a = some v := hv.2.2
  refine ⟨_, exec_encodeStep_of_pull hen hbits hpull hv, ?_⟩
  rw [nextFrameBit_eq]
  exact oneByteWritten_write hwf hread _

/-! ### The end of ENCODE (R186, R187, R189) -/

theorem exec_encodeStep_complete {s : State} (hen : EncodeEnabled s)
    (h : (s.frBits.val = 0 ∧ s.frIdx.toNat = s.payloadLen.toNat + 12) ∨ s.cursor.toNat = sampleCount s) :
    exec .encodeStep s = .next (encodeComplete s.params s) := by
  rw [exec_encodeStep_enabled hen]
  rcases h with hf | hc
  · simp [encodeBody, (framerExhausted_iff s).2 hf]
  · simp [encodeBody, (samplesExhausted_iff s).2 hc]

/-- The branch of R189 is taken exactly where CURSOR = S before the framer is exhausted. -/
theorem encodeTruncate_selected_iff (s : State) : (framerExhausted s = false ∧ samplesExhausted s = true) ↔
    ¬ (s.frBits.val = 0 ∧ s.frIdx.toNat = s.payloadLen.toNat + 12) ∧ s.cursor.toNat = sampleCount s := by
  rw [← Bool.not_eq_true, framerExhausted_iff, samplesExhausted_iff]

theorem exec_encodeTruncate_taken {s : State} (hcursor : s.cursor.toNat = sampleCount s)
    (hframer : ¬ (s.frBits.val = 0 ∧ s.frIdx.toNat = s.payloadLen.toNat + 12)) :
    exec .encodeTruncate s = .next (encodeComplete s.params s) :=
  if_pos ((encodeTruncate_selected_iff s).2 ⟨hframer, hcursor⟩)

theorem exec_encodeTruncate_not_taken {s : State}
    (h : s.cursor.toNat ≠ sampleCount s ∨ (s.frBits.val = 0 ∧ s.frIdx.toNat = s.payloadLen.toNat + 12)) :
    exec .encodeTruncate s = .next s := by
  refine if_neg (mt (encodeTruncate_selected_iff s).1 fun ⟨hframer, hcursor⟩ => ?_)
  exact h.elim (fun hne => hne hcursor) hframer

/-- Settles O37: one completed state, whichever of the three ends the command. -/
theorem encodeStepCompletes : Obligations.EncodeStepCompletes := by
  refine fun s => ⟨encodeComplete s.params s, rfl, rfl, fun hen hf => ?_, fun hen hc => ?_, fun _ => ?_, fun _ => ?_, ?_⟩
  · exact exec_encodeStep_complete hen (.inl hf)
  · exact exec_encodeStep_complete hen (.inr hc)
  · exact exec_encodeTruncate_taken
  · exact exec_encodeTruncate_taken
  · exact exec_encodeTruncate_not_taken

end Sys2Proof.Machine
end

section
/-! PROOFS. The scanner's transition table, and what DECODE does not look at (43_marker_scan.md R221 to R237). -/

namespace Sys2Proof.Machine

/-! ### DECODE and PAYLOAD_LEN (R25, R221) -/

section
variable (p : Params) (s : State) (n : Word64)

theorem scanByte_payloadLen (c : Byte) :
    scanByte p c { s with payloadLen := n } = { scanByte p c s with payloadLen := n } := by
  obtain ⟨x, hs⟩ : ∃ x, s.scan = x := ⟨_, rfl⟩
  cases x with
  | seekStart m =>
    rw [scanByte_seekStart p c s m hs, scanByte_seekStart p c { s with payloadLen := n } m hs]
    split
    · rfl
    · split <;> rfl
  | seekEnd m =>
    rw [scanByte_seekEnd p c s m hs, scanByte_seekEnd p c { s with payloadLen := n } m hs]
    split
    · rfl
    · split <;> rfl
  | readCksum m =>
    rw [scanByte_readCksum p c s m hs, scanByte_readCksum p c { s with payloadLen := n } m hs]
    split <;> rfl

theorem feedScanner_payloadLen :
    feedScanner p { s with payloadLen := n } = { feedScanner p s with payloadLen := n } := by
  unfold feedScanner
  by_cases h : s.asCnt = 7
  · rw [if_pos h, if_pos h]
    exact scanByte_payloadLen p { s with asCnt := 0 } n s.asByte
  · rw [if_neg h, if_neg h]

end

/-- CHECK at OP 4 decides by the geometry alone. -/
theorem exec_check_decode_payloadLen {s t : State} (ho : s.op = .decode) (n : Word64) (h : exec .check s = .next t) :
    exec .check { s with payloadLen := n } = .next { t with payloadLen := n } := by
  by_cases hen : CheckEnabled s
  · by_cases hg : GeometryLegal s.params s
    · rw [exec_check_decode hen ho hg] at h
      cases h
      exact exec_check_decode (s := { s with payloadLen := n }) hen ho hg
    · rw [exec_check_not_geometryLegal hen hg] at h
      cases h
      exact exec_check_not_geometryLegal (s := { s with payloadLen := n }) hen hg
  · rw [exec_check_disabled hen] at h
    cases h
    exact exec_check_disabled (s := { s with payloadLen := n }) hen

theorem exec_decodeStep_payloadLen {s t : State} (n : Word64) (h : exec .decodeStep s = .next t) :
    exec .decodeStep { s with payloadLen := n } = .next { t with payloadLen := n } := by
  by_cases hen : DecodeEnabled s
  · rw [exec_decodeStep_enabled hen] at h
    rcases decodeBody_next h with ⟨rfl, hend⟩ | ⟨a, v, hv, rfl, hterm, hlast⟩
    · rw [scanTerminal_iff, samplesExhausted_iff] at hend
      exact exec_decodeStep_complete (s := { s with payloadLen := n }) hen hend
    · rw [← Bool.not_eq_true, scanTerminal_iff] at hterm
      rw [← Bool.not_eq_true, samplesExhausted_iff] at hlast
      rw [exec_decodeStep_feed (s := { s with payloadLen := n }) hen hterm hlast hv]
      exact congrArg _ (feedScanner_payloadLen s.params (assembleBit (getLsb v) s) n)
  · rw [exec_decodeStep_disabled hen] at h
    cases h
    exact exec_decodeStep_disabled (s := { s with payloadLen := n }) hen

/-- Settles O40: neither of DECODE's engine steps looks at PAYLOAD_LEN. -/
theorem decodeIgnoresPayloadLength : Obligations.DecodeIgnoresPayloadLength :=
  fun _ _ n ho => ⟨exec_check_decode_payloadLen ho n, exec_decodeStep_payloadLen n⟩

/-! ### The rows of the table (R237) -/

theorem toNat_eq_startByte_iff (c : Byte) (n : Fin 4) :
    c.toNat = [0x0F, 0x1F, 0x2F, 0xFF].getD n.val 0 ↔ c = startByte n.val := by
  have hbyte : [0x0F, 0x1F, 0x2F, 0xFF].getD n.val 0 = (startByte n.val).toNat := by revert n; decide
  rw [hbyte, BitVec.toNat_inj]

theorem toNat_eq_endByte_iff (c : Byte) (n : Fin 4) :
    c.toNat = [0x0E, 0x1E, 0x2E, 0xEE].getD n.val 0 ↔ c = endByte n.val := by
  have hbyte : [0x0E, 0x1E, 0x2E, 0xEE].getD n.val 0 = (endByte n.val).toNat := by revert n; decide
  rw [hbyte, BitVec.toNat_inj]

theorem scanArm_seekStart (n : Fin 4) (c : Byte) : scanArm (.seekStart n) c = some (
    if c = startByte n.val then (if n.val < 3 then .ssMatch c else .ssMatchLast c) else .ssMismatch c) := by
  simp only [scanArm, toNat_eq_startByte_iff]
  split
  · split <;> rfl
  · rfl

theorem scanArm_seekEnd (n : Fin 4) (c : Byte) : scanArm (.seekEnd n) c = some (
    if c = endByte n.val then (if n.val < 3 then .seMatch c else .seMatchLast c) else .seMismatch c) := by
  simp only [scanArm, toNat_eq_endByte_iff]
  split
  · split <;> rfl
  · rfl

theorem scanArm_readCksum (n : Fin 5) (c : Byte) :
    scanArm (.readCksum n) c = if n.val < 4 then some (.rcByte c) else none := rfl

/-- SCAN_BYTE and the selected arm are one and the same. -/
theorem exec_scanArm {s : State} {c : Byte} {i : Instr} (h : scanArm s.scan c = some i) :
    exec i s = exec (.scanByte c) s := by
  cases hs : s.scan with
  | seekStart n =>
    rw [hs, scanArm_seekStart, Option.some.injEq] at h
    subst h
    by_cases hc : c = startByte n.val
    · by_cases h3 : n.val < 3 <;> simp [hc, h3, exec, execSsMatch, execSsMatchLast, execScanByte, scanByte, hs]
    · simp [hc, exec, execSsMismatch, execScanByte, scanByte, hs]
  | seekEnd n =>
    rw [hs, scanArm_seekEnd, Option.some.injEq] at h
    subst h
    by_cases hc : c = endByte n.val
    · by_cases h3 : n.val < 3 <;> simp [hc, h3, exec, execSeMatch, execSeMatchLast, execScanByte, scanByte, hs]
    · simp [hc, exec, execSeMismatch, execScanByte, scanByte, hs]
  | readCksum n =>
    rw [hs, scanArm_readCksum] at h
    split at h
    · cases h
      simp only [exec, execRcByte, execScanByte, scanByte, hs]
    · cases h

theorem scanArm_eq_none_iff (x : ScanState) (c : Byte) : scanArm x c = none ↔ x = .readCksum 4 := by
  cases x with
  | seekStart n => simp [scanArm_seekStart]
  | seekEnd n => simp [scanArm_seekEnd]
  | readCksum n =>
    rw [scanArm_readCksum, ScanState.readCksum.injEq, Fin.ext_iff]
    have := n.isLt
    split <;> simp <;> omega

/-- The terminal state takes no byte (R236). -/
theorem scanByte_terminal {s : State} (h : s.scan = .readCksum 4) (p : Params) (c : Byte) : scanByte p c s = s :=
  scanByte_readCksum p c s 4 h

/-- Settles O42: the selected arm, and the one state that selects none. -/
theorem scanByteRunsSelectedArm : Obligations.ScanByteRunsSelectedArm := by
  refine fun s c => ⟨fun i hi => ⟨scanByte s.params c s, exec_scanArm hi, rfl⟩, fun hnone => ?_⟩
  have hs := (scanArm_eq_none_iff _ c).1 hnone
  exact ⟨hs, congrArg _ (scanByte_terminal hs s.params c)⟩

/-! ### The arms that are not selected (log 10) -/

section
variable {s : State} {c : Byte}

theorem ssMatch_unselected (h : scanArm s.scan c ≠ some (.ssMatch c)) : ssMatch c s = s := by
  unfold ssMatch
  split
  next n hs =>
    rw [hs, scanArm_seekStart] at h
    split
    next h3 =>
      refine if_neg fun hc => h ?_
      simp [hc, h3]
    · rfl
  all_goals rfl

theorem ssMatchLast_unselected (h : scanArm s.scan c ≠ some (.ssMatchLast c)) : ssMatchLast c s = s := by
  unfold ssMatchLast
  split
  next n hs =>
    rw [hs, scanArm_seekStart] at h
    refine if_neg fun ⟨hn, hc⟩ => h ?_
    simp [hn, hc]
  all_goals rfl

theorem ssMismatch_unselected (h : scanArm s.scan c ≠ some (.ssMismatch c)) : ssMismatch c s = s := by
  unfold ssMismatch
  split
  next n hs =>
    rw [hs, scanArm_seekStart] at h
    refine if_neg fun hc => h ?_
    simp [hc]
  all_goals rfl

theorem seMatch_unselected (h : scanArm s.scan c ≠ some (.seMatch c)) : seMatch c s = s := by
  unfold seMatch
  split
  · rfl
  next n hs =>
    rw [hs, scanArm_seekEnd] at h
    split
    next h3 =>
      refine if_neg fun hc => h ?_
      simp [hc, h3]
    · rfl
  · rfl

theorem seMatchLast_unselected (h : scanArm s.scan c ≠ some (.seMatchLast c)) : seMatchLast c s = s := by
  unfold seMatchLast
  split
  · rfl
  next n hs =>
    rw [hs, scanArm_seekEnd] at h
    refine if_neg fun ⟨hn, hc⟩ => h ?_
    simp [hn, hc]
  · rfl

theorem seMismatch_unselected (p : Params) (h : scanArm s.scan c ≠ some (.seMismatch c)) : seMismatch p c s = s := by
  unfold seMismatch
  split
  · rfl
  next n hs =>
    rw [hs, scanArm_seekEnd] at h
    refine if_neg fun hc => h ?_
    simp [hc]
  · rfl

theorem rcByte_unselected (h : scanArm s.scan c ≠ some (.rcByte c)) : rcByte c s = s := by
  unfold rcByte
  split
  · rfl
  · rfl
  next n hs =>
    rw [hs, scanArm_readCksum] at h
    refine dif_neg fun hn => h ?_
    simp [hn]

end

/-- Settles O47: the three engine steps by their enabling condition, the seven arms by their row. -/
theorem unselectedStepsDoNothing : Obligations.UnselectedStepsDoNothing := by
  refine ⟨fun s => ⟨exec_check_disabled, exec_encodeStep_disabled, exec_decodeStep_disabled⟩, fun s c i hi h => ?_⟩
  simp only [List.mem_cons, List.not_mem_nil, or_false] at hi
  rcases hi with rfl | rfl | rfl | rfl | rfl | rfl | rfl
  · exact congrArg _ (ssMatch_unselected h)
  · exact congrArg _ (ssMatchLast_unselected h)
  · exact congrArg _ (ssMismatch_unselected h)
  · exact congrArg _ (seMatch_unselected h)
  · exact congrArg _ (seMatchLast_unselected h)
  · exact congrArg _ (seMismatch_unselected _ h)
  · exact congrArg _ (rcByte_unselected h)

end Sys2Proof.Machine
end

section
/-! PROOFS. What the scanner does to a stream of bytes: nothing is lost while it seeks the end marker, and a framed payload
comes back (43_marker_scan.md R229, R232, R243, R245). -/

namespace Sys2Proof.Machine

/-! ### One byte in SEEK_END -/

theorem heldBack_succ (n : Nat) : heldBack (n + 1) = heldBack n ++ [endByte n] := by
  simp [heldBack, List.range_succ]

/-- Settles O49: a mismatch emits the held-back bytes and c, a match holds c back too, and the fourth match confirms the
marker. -/
theorem scannerConservesPayloadBytes : Obligations.ScannerConservesPayloadBytes := by
  intro s n c hs
  refine ⟨scanByte s.params c s, rfl, ?_⟩
  rw [← heldBack_eq n.val n.isLt, scanByte_seekEnd s.params c s n hs]
  split
  · refine .inl ⟨0, rfl, ?_⟩
    simp
  next hc =>
    rw [not_not] at hc
    split
    next h3 =>
      refine .inl ⟨⟨n.val + 1, by omega⟩, rfl, ?_⟩
      rw [← heldBack_eq (n.val + 1) (by omega), heldBack_succ, hc, ← List.append_assoc]
    next h3 =>
      have hn : n.val = 3 := by omega
      exact .inr ⟨hn, by rw [hc, hn]; rfl, rfl⟩

/-! ### A stream of bytes -/

/-- SCAN_BYTE on each byte in order. -/
def scanBytes (p : Params) (bytes : List Byte) (s : State) : State := bytes.foldl (fun t c => scanByte p c t) s

theorem scanBytes_append (p : Params) (xs ys : List Byte) (s : State) :
    scanBytes p (xs ++ ys) s = scanBytes p ys (scanBytes p xs s) := List.foldl_append

@[simp] theorem scanByte_params (p : Params) (c : Byte) (s : State) : (scanByte p c s).params = s.params := by
  obtain ⟨_, _, _, _, _, e⟩ := scanByte_frame p c s
  rw [e]

/-- No byte of a stream is refused or faults, so the stream's outcome is the state after its last byte. -/
theorem scanStream_eq (bytes : List Byte) (s : State) :
    scanStream bytes s = .next (scanBytes s.params bytes s) := by
  induction bytes generalizing s with
  | nil => rfl
  | cons c rest ih =>
    have hexec : exec (.scanByte c) s = .next (scanByte s.params c s) := rfl
    rw [scanStream, hexec]
    dsimp only
    rw [ih, scanByte_params]
    rfl

/-- From SS(0) the start marker leads to SE(0) and touches SCAN only. -/
theorem scanBytes_startMarker (p : Params) {s : State} (h : s.scan = .seekStart 0) :
    scanBytes p [0x0F, 0x1F, 0x2F, 0xFF] s = { s with scan := .seekEnd 0 } := by
  have h0 : scanByte p 0x0F s = { s with scan := .seekStart 1 } := scanByte_seekStart p _ s 0 h
  simp only [scanBytes, List.foldl_cons, List.foldl_nil, h0]
  rfl

/-- From SE(0) the end marker leads to RC(0) and touches SCAN only. -/
theorem scanBytes_endMarker (p : Params) {s : State} (h : s.scan = .seekEnd 0) :
    scanBytes p [0x0E, 0x1E, 0x2E, 0xEE] s = { s with scan := .readCksum 0 } := by
  have h0 : scanByte p 0x0E s = { s with scan := .seekEnd 1 } := scanByte_seekEnd p _ s 0 h
  simp only [scanBytes, List.foldl_cons, List.foldl_nil, h0]
  rfl

/-! ### The payload (R243) -/

/-- The scanner, started at SE(0) in `s`, after the bytes `q`: it is in some SE(n), and has emitted all of `q` but the n
bytes it holds back. -/
def SeekingAfter (p : Params) (s : State) (q : List Byte) (t : State) : Prop :=
  ∃ (n : Fin 4) (out : List Byte), q = out ++ heldBack n.val ∧
    t = { s with
          scan := .seekEnd n, sink := s.sink ++ out, crcAcc := out.foldl (crcUpdate p) s.crcAcc
          count := s.count + BitVec.ofNat 64 out.length }

/-- One more byte that does not confirm the marker. -/
theorem SeekingAfter.scanByte {p : Params} {s t : State} {q : List Byte} {c : Byte} (h : SeekingAfter p s q t)
    (hmarker : ¬ [0x0E, 0x1E, 0x2E, 0xEE] <:+ q ++ [c]) : SeekingAfter p s (q ++ [c]) (scanByte p c t) := by
  obtain ⟨n, out, rfl, rfl⟩ := h
  rw [scanByte_seekEnd p c _ n rfl]
  split
  · refine ⟨0, out ++ (heldBack n.val ++ [c]), ?_, ?_⟩
    · simp [heldBack]
    · simp [heldBack_length, BitVec.ofNat_add, BitVec.add_assoc]
  next hc =>
    rw [not_not] at hc
    subst hc
    split
    next h3 => exact ⟨⟨n.val + 1, by omega⟩, out, by rw [heldBack_succ, List.append_assoc], rfl⟩
    next h3 =>
      have hn : n.val = 3 := by omega
      refine absurd ?_ hmarker
      rw [hn, List.append_assoc]
      exact List.suffix_append out _

/-- Bytes without a full end marker leave the scanner in SEEK_END. -/
theorem seekingAfter_scanBytes (p : Params) (s : State) (q : List Byte) (hq : ¬ [0x0E, 0x1E, 0x2E, 0xEE] <:+: q) :
    SeekingAfter p s q (scanBytes p q { s with scan := .seekEnd 0 }) := by
  induction q using List.reverseRecOn with
  | nil => exact ⟨0, [], rfl, by simp [scanBytes]⟩
  | append_singleton q c ih =>
    have hprev := ih fun h => hq (h.trans (List.prefix_append q [c]).isInfix)
    rw [scanBytes_append]
    exact hprev.scanByte fun h => hq h.isInfix

/-- After a recoverable payload nothing is held back. -/
theorem SeekingAfter.of_recoverable {p : Params} {s t : State} {payload : List Byte} (hr : Recoverable payload)
    (h : SeekingAfter p s payload t) :
    t = { s with
          scan := .seekEnd 0, sink := s.sink ++ payload, crcAcc := payload.foldl (crcUpdate p) s.crcAcc
          count := s.count + BitVec.ofNat 64 payload.length } := by
  obtain ⟨n, out, hq, rfl⟩ := h
  obtain ⟨-, h1, h2, h3⟩ := hr
  have hheld : heldBack n.val <:+ payload := hq ▸ List.suffix_append out _
  match n with
  | 0 =>
    rw [hq, show heldBack (0 : Fin 4).val = [] from rfl, List.append_nil]
  | 1 => exact absurd hheld h1
  | 2 => exact absurd hheld h2
  | 3 => exact absurd hheld h3

/-! ### The checksum (R236) -/

/-- A word is its four bytes shifted in one after another, whatever the register held before. -/
theorem shiftIn_bigEndian (w x : Word32) :
    ((((x <<< 8 ||| (checksumByte w 0).setWidth 32) <<< 8 ||| (checksumByte w 1).setWidth 32) <<< 8 |||
      (checksumByte w 2).setWidth 32) <<< 8 ||| (checksumByte w 3).setWidth 32) = w := by
  apply BitVec.eq_of_toNat_eq
  have := w.isLt
  simp only [toNat_shiftLeft_or_setWidth, checksumByte_toNat]
  omega

/-- From RC(0) the four checksum bytes lead to RC(4) and leave the checksum in STORED. -/
theorem scanBytes_checksum (p : Params) (w : Word32) {s : State} (h : s.scan = .readCksum 0) :
    scanBytes p (bigEndian32 w) s = { s with scan := .readCksum 4, stored := w } := by
  have hfirst : scanByte p (checksumByte w 0) s = { s with
      stored := (s.stored <<< 8) ||| (checksumByte w 0).setWidth 32, scan := .readCksum 1 } :=
    scanByte_readCksum p _ s 0 h
  have hrest : scanBytes p (bigEndian32 w) s = { s with
      scan := .readCksum 4
      stored := (((s.stored <<< 8 ||| (checksumByte w 0).setWidth 32) <<< 8 ||| (checksumByte w 1).setWidth 32) <<< 8 |||
        (checksumByte w 2).setWidth 32) <<< 8 ||| (checksumByte w 3).setWidth 32 } := by
    simp only [scanBytes, show bigEndian32 w = [checksumByte w 0, checksumByte w 1, checksumByte w 2, checksumByte w 3]
      from rfl, List.foldl_cons, List.foldl_nil, hfirst]
    rfl
  rw [hrest, shiftIn_bigEndian]

/-- Settles O50: start marker, payload, end marker and checksum, one after another. -/
theorem scannerRecoversFramedPayload : Obligations.ScannerRecoversFramedPayload := by
  intro s payload hs hcrc hr
  have hpayload := (seekingAfter_scanBytes s.params s payload hr.1).of_recoverable hr
  refine ⟨_, scanStream_eq _ s, ?_⟩
  rw [framedStream, scanBytes_append, scanBytes_append, scanBytes_append, scanBytes_startMarker s.params hs, hpayload,
    scanBytes_endMarker s.params rfl, scanBytes_checksum s.params _ rfl, hcrc]
  exact ⟨rfl, rfl, rfl, rfl, rfl⟩

end Sys2Proof.Machine
end

section
/-! PROOFS. What the instructions can do to the buffer, and the footprints of the engine steps (20_memory.md R60, R64, R65,
R71, R81, R82). -/

namespace Sys2Proof.Machine

/-- Settles O54: what an instruction does to the buffer is at most one write. -/
theorem instructionsKeepBufferForm : Obligations.InstructionsKeepBufferForm := by
  intro i s t hwf h
  rcases exec_mem i s t h with e | ⟨_, a, v, bit, _, e⟩
  · rw [e]; exact ⟨hwf, rfl⟩
  · rw [e]; exact ⟨Memory.write_wf hwf a _, Memory.write_size _ a _⟩

/-- Settles O55: the one write replaces bit 0 of a sample's byte, and at DEPTH 16 that byte stands at an odd offset. -/
theorem onlyLowBitsOfSamplesChange : Obligations.OnlyLowBitsOfSamplesChange := by
  intro i s t a hwf h
  rcases exec_mem i s t h with e | ⟨k, b, v, bit, ⟨_, haddr, hread⟩, e⟩
  · rw [e]; exact ⟨fun v hv => ⟨v, hv, rfl⟩, fun _ _ => rfl⟩
  · rw [e]
    refine ⟨fun w hw => ?_, fun hd heven => Memory.read_write_other hwf (by omega) _⟩
    by_cases hab : a = b
    · subst hab
      obtain rfl : v = w := Option.some.inj (hread.symm.trans hw)
      refine ⟨_, Memory.read_write_same hwf (Memory.lt_size_of_read hread) _, ?_⟩
      have hbit := bit.isLt
      rw [setLsb_toNat]
      omega
    · exact ⟨w, (Memory.read_write_other hwf hab _).trans hw, rfl⟩

/-- A DECODE loop step writes neither the buffer nor the source (R81). -/
theorem exec_decodeStep_mem_source {s t : State} (h : exec .decodeStep s = .next t) :
    t.mem = s.mem ∧ t.source = s.source := by
  by_cases hen : DecodeEnabled s
  · rw [exec_decodeStep_enabled hen] at h
    rcases decodeBody_next h with ⟨rfl, _⟩ | ⟨_, v, _, rfl, _⟩
    · exact ⟨rfl, rfl⟩
    · obtain ⟨_, _, _, _, _, _, e⟩ := feedScanner_frame s.params (assembleBit (getLsb v) s)
      rw [e]
      exact ⟨rfl, rfl⟩
  · rw [exec_decodeStep_disabled hen] at h
    cases h
    exact ⟨rfl, rfl⟩

/-- Settles O56: the frames of the three engine steps. -/
theorem engineStepFootprints : Obligations.EngineStepFootprints := by
  refine fun s t => ⟨exec_decodeStep_mem_source, exec_encodeStep_sink, fun h => ?_⟩
  obtain ⟨_, _, _, _, _, rfl⟩ := exec_check_frame h
  exact ⟨rfl, rfl, rfl⟩

end Sys2Proof.Machine
end

section
/-! PROOFS. The invariant of reachable states: it holds at reset and every step keeps it (10_state.md R47). -/

namespace Sys2Proof.Machine

/-! ### The invariant, state by state -/

/-- An idle block in STAGE CHECK needs the buffer's form and the condition on FR_BITS only. -/
theorem State.Inv.of_idle {t : State} (hmem : t.mem.wf = true) (hbusy : t.busy = false) (hstage : t.stage = .check)
    (hpulled : 0 < t.frBits.val → 1 ≤ t.frIdx.toNat) : t.Inv where
  memory := hmem
  idle _ := hstage
  command hb := by simp [hbusy] at hb
  pulled := hpulled
  fresh hb := by simp [hbusy] at hb
  run hb := by simp [hbusy] at hb

theorem State.Inv.complete {s : State} (h : s.Inv) (code : ResultCode) : (complete code s).Inv :=
  .of_idle h.memory rfl rfl h.pulled

/-- A block in STAGE RUN with what holds there. -/
theorem State.Inv.of_run {t : State} (hmem : t.mem.wf = true) (hstage : t.stage = .run) (hbusy : t.busy = true)
    (hpulled : 0 < t.frBits.val → 1 ≤ t.frIdx.toNat) (hrun : RunInv t) : t.Inv where
  memory := hmem
  idle hb := by simp [hbusy] at hb
  command _ := by rcases hrun.command with h | h <;> simp [h]
  pulled := hpulled
  fresh _ hs := by simp [hstage] at hs
  run _ _ := hrun

/-- A block that has just accepted a command (R130). -/
theorem beginCommand_inv {s : State} (hmem : s.mem.wf = true) {o : Opcode} (ho : o ≠ .none) :
    (beginCommand s.params o s).Inv where
  memory := hmem
  idle hb := by cases hb
  command _ := ho
  pulled hp := by cases hp
  fresh _ _ := ⟨rfl, rfl, rfl, rfl, rfl, rfl, rfl, rfl, rfl, rfl, rfl, rfl⟩
  run _ hs := by cases hs

/-- What the host owns, the port's data and the coming turns are in no condition but the buffer's form. -/
theorem State.Inv.hostFields {s : State} (h : s.Inv) {m : Memory} (hm : m.wf = true) (source sink : List Byte)
    (turns : List Turn) (portOut : Word64) :
    { s with mem := m, source := source, sink := sink, turns := turns, portOut := portOut }.Inv where
  memory := hm
  idle := h.idle
  command := h.command
  pulled := h.pulled
  fresh hb hs :=
    let ⟨h1, h2, h3, h4, h5, h6, h7, h8, h9, h10, h11, h12⟩ := h.fresh hb hs
    ⟨h1, h2, h3, h4, h5, h6, h7, h8, h9, h10, h11, h12⟩
  run hb hs :=
    let ⟨hgeometry, hcommand, hcursor, hcapacity, hencoding, hdecoding⟩ := h.run hb hs
    ⟨hgeometry, hcommand, hcursor, hcapacity,
      fun ho => let ⟨hfits, hindex, hbits, hpulls⟩ := hencoding ho; ⟨hfits, hindex, hbits, hpulls⟩,
      fun ho => let ⟨hasm, hemitted, hsilent⟩ := hdecoding ho; ⟨hasm, hemitted, hsilent⟩⟩

theorem State.Inv.turns {s : State} (h : s.Inv) (turns : List Turn) : { s with turns := turns }.Inv :=
  h.hostFields h.memory s.source s.sink turns s.portOut

/-- Settles O52: at reset the block is idle, with an empty buffer and no bits left. -/
theorem resetMeetsInvariant : Obligations.ResetMeetsInvariant := by
  have hreset : ∀ p : Params, (State.resetFor p).Inv := fun p => .of_idle rfl rfl rfl fun h => by cases h
  exact ⟨hreset _, fun p => ⟨hreset p, rfl⟩⟩

/-! ### CHECK -/

/-- The registers of a command that enters STAGE RUN: cleared, but for CAPACITY (R134). -/
theorem runInv_of_check {s : State} (hf : FreshInv s) (hg : geometryOk s.params s = true)
    (ho : s.op = .encode ∧ exceedsCapacity s = false ∨ s.op = .decode) :
    RunInv { s with capacity := BitVec.ofNat 64 (capacityBytes s), stage := .run } where
  geometry := hg
  command := ho.imp_left And.left
  cursor := by simp [hf.cursor]
  capacity := ((geometryOk_iff _ _).1 hg).capacity_toNat
  encoding he := by
    have hfits : exceedsCapacity s = false := by
      rcases ho with ⟨_, h⟩ | h
      · exact h
      · exact absurd (he.symm.trans h) (by decide)
    rw [← Bool.not_eq_true, exceedsCapacity_iff, not_lt] at hfits
    exact ⟨hfits, by simp [hf.frIdx], by simp [hf.cursor, hf.frBits, hf.frIdx], by simp [hf.count, hf.frIdx]⟩
  decoding _ := ⟨by simp [hf.asCnt, hf.cursor], by simp [hf.count, hf.scan, hf.cursor, heldCount],
    fun _ => ⟨hf.count, hf.crcAcc⟩⟩

theorem exec_check_inv {s t : State} (h : s.Inv) (hen : CheckEnabled s) (ht : exec .check s = .next t) : t.Inv := by
  have hfresh : FreshInv s := h.fresh hen.1 hen.2
  have hcomplete : ∀ code, (complete code { s with capacity := BitVec.ofNat 64 (capacityBytes s) }).Inv :=
    fun _ => .of_idle h.memory rfl rfl h.pulled
  have hrun := fun hg ho => State.Inv.of_run
    (t := { s with capacity := BitVec.ofNat 64 (capacityBytes s), stage := .run }) h.memory rfl hen.1 h.pulled (runInv_of_check hfresh hg ho)
  rw [exec_check_enabled hen] at ht
  rcases checkBody_next ht with ⟨_, rfl⟩ | ⟨hg, u, rfl, hcase⟩
  · exact h.complete _
  · rcases hcase with ⟨_, rfl⟩ | ⟨_, _, rfl⟩ | ⟨_, _, rfl⟩ | ⟨_, _, rfl⟩ | ⟨ho, hfits, rfl⟩ | ⟨ho, rfl⟩
    · exact hcomplete _
    · exact hcomplete _
    · exact hcomplete _
    · exact hcomplete _
    · exact hrun hg (.inl ⟨ho, hfits⟩)
    · exact hrun hg (.inr ho)

/-! ### The loop steps: the counters -/

/-- The counters of a running command stay below 2^64, so that an advance of CURSOR loses no bit. -/
theorem RunInv.cursor_succ {s : State} (h : RunInv s) (hlast : s.cursor.toNat ≠ sampleCount s) :
    (s.cursor + 1).toNat = s.cursor.toNat + 1 ∧ s.cursor.toNat + 1 ≤ sampleCount s := by
  have hS := ((geometryOk_iff _ _).1 h.geometry).sampleCount_lt
  have hle := h.cursor
  rw [BitVec.toNat_add]
  exact ⟨Nat.mod_eq_of_lt (by simp; omega), by omega⟩

/-- CURSOR, FR_BITS and FR_IDX after a step with bits left. -/
theorem encodeInv_of_held {s : State} {a : Nat} {v : Byte} (hr : RunInv s) (he : EncodeInv s) (hbits : 0 < s.frBits.val)
    (hlast : s.cursor.toNat ≠ sampleCount s) : EncodeInv (embedded s a v) where
  fits := he.fits
  index := he.index
  bits := by
    have hb := he.bits
    have hc := (hr.cursor_succ hlast).1
    show (s.cursor + 1).toNat + (s.frBits.val - 1) = 8 * s.frIdx.toNat
    omega
  pulls := he.pulls

/-- FR_IDX after a pull: below M before it, so at most M after it. -/
theorem EncodeInv.frIdx_succ {s : State} (hr : RunInv s) (he : EncodeInv s) (hlt : s.frIdx.toNat < framedBytes s) :
    (s.frIdx + 1).toNat = s.frIdx.toNat + 1 := by
  have hS := ((geometryOk_iff _ _).1 hr.geometry).sampleCount_lt
  have hfits := he.fits
  have hcap : capacityBytes s ≤ sampleCount s := Nat.div_le_self _ _
  rw [BitVec.toNat_add]
  exact Nat.mod_eq_of_lt (by simp; omega)

/-- The counters after a step that pulls. -/
theorem encodeInv_of_pull {s : State} {a : Nat} {v b : Byte} {crc : Word32} {source : List Byte} (hr : RunInv s)
    (he : EncodeInv s) (hbits : s.frBits.val = 0) (hlt : s.frIdx.toNat < framedBytes s)
    (hlast : s.cursor.toNat ≠ sampleCount s) :
    EncodeInv (embedded
      { s with
        frIdx := s.frIdx + 1, crcAcc := crc, source := source, frShift := b, frBits := 8, count := s.count + 1 }
      a v) where
  fits := he.fits
  index := by
    show (s.frIdx + 1).toNat ≤ framedBytes s
    rw [he.frIdx_succ hr hlt]
    exact hlt
  bits := by
    have hb := he.bits
    have hc := (hr.cursor_succ hlast).1
    have hi := he.frIdx_succ hr hlt
    show (s.cursor + 1).toNat + 7 = 8 * (s.frIdx + 1).toNat
    omega
  pulls := congrArg (· + 1) he.pulls

/-- What holds in STAGE RUN does not depend on what an embedding step writes, but for CURSOR and the framer's own
condition. -/
theorem runInv_embedded {s : State} (hr : RunInv s) (ho : s.op = .encode) (hlast : s.cursor.toNat ≠ sampleCount s)
    {i co : Word64} {c : Word32} {src : List Byte} {sh v : Byte} {bi : Fin 9} {a : Nat}
    (he : EncodeInv (embedded
      { s with frIdx := i, crcAcc := c, source := src, frShift := sh, frBits := bi, count := co } a v)) :
    RunInv (embedded
      { s with frIdx := i, crcAcc := c, source := src, frShift := sh, frBits := bi, count := co } a v) where
  geometry := hr.geometry
  command := hr.command
  cursor := (hr.cursor_succ hlast).1.trans_le (hr.cursor_succ hlast).2
  capacity := hr.capacity
  encoding _ := he
  decoding hd := absurd (ho.symm.trans hd) (by decide)

/-- While an ENCODE runs, bits left belong to a byte that has been pulled. -/
theorem EncodeInv.pulled {s : State} (he : EncodeInv s) (hbits : 0 < s.frBits.val) : 1 ≤ s.frIdx.toNat := by
  have hb := he.bits
  omega

/-- The framer has a byte left where it has no bits left and is not exhausted. -/
theorem EncodeInv.frIdx_lt {s : State} (he : EncodeInv s) (hbits : s.frBits.val = 0)
    (hframer : framerExhausted s = false) : s.frIdx.toNat < framedBytes s := by
  rw [← Bool.not_eq_true, framerExhausted_iff] at hframer
  exact lt_of_le_of_ne he.index fun heq => hframer ⟨hbits, heq⟩

/-- ENCODE completes, holds, or embeds a bit that was left or pulled (R186). -/
theorem exec_encodeStep_inv {s t : State} (h : s.Inv) (hen : EncodeEnabled s) (ht : exec .encodeStep s = .next t) :
    t.Inv := by
  have hr := h.run hen.1 hen.2.1
  have he := hr.encoding hen.2.2
  rw [exec_encodeStep_enabled hen] at ht
  rcases encodeBody_next ht with ⟨rfl, _⟩ | ⟨rfl, _⟩ | ⟨b, u, a, v, hrefill, hv, rfl, hframer, hlast⟩
  · exact .of_idle h.memory rfl rfl h.pulled
  · exact h
  · rw [← Bool.not_eq_true, samplesExhausted_iff] at hlast
    by_cases hbits : s.frBits.val = 0
    · obtain ⟨crc, source, _, rfl⟩ := (refill_empty_byte_iff _ s u b hbits).1 hrefill
      have hnext := encodeInv_of_pull (a := a) (v := v) (b := b) (crc := crc) (source := source) hr he hbits
        (he.frIdx_lt hbits hframer) hlast
      exact .of_run (Memory.write_wf h.memory _ _) hen.2.1 hen.1 hnext.pulled (runInv_embedded hr hen.2.2 hlast hnext)
    · rw [refill_held _ s (by omega)] at hrefill
      obtain ⟨_, rfl⟩ := Pull.byte.inj hrefill
      have hnext := encodeInv_of_held (a := a) (v := v) hr he (by omega) hlast
      exact .of_run (Memory.write_wf h.memory _ _) hen.2.1 hen.1 hnext.pulled (runInv_embedded hr hen.2.2 hlast hnext)

/-! ### The DECODE loop step: the bytes fed, emitted and held back -/

theorem toNat_add_le {n : Nat} (x y : BitVec n) : (x + y).toNat ≤ x.toNat + y.toNat := by
  rw [BitVec.toNat_add]
  exact Nat.mod_le _ _

/-- A byte fed to the scanner is emitted or held back once at most (R229, R232). -/
theorem scanByte_emitted_le (p : Params) (c : Byte) (s : State) :
    (scanByte p c s).count.toNat + heldCount (scanByte p c s).scan ≤ s.count.toNat + heldCount s.scan + 1 := by
  cases hs : s.scan with
  | seekStart n =>
    rw [scanByte_seekStart p c s n hs]
    split
    · simp [heldCount]
    · split <;> simp [heldCount]
  | seekEnd n =>
    rw [scanByte_seekEnd p c s n hs]
    split
    · have hcount := toNat_add_le s.count (BitVec.ofNat 64 (n.val + 1))
      rw [BitVec.toNat_ofNat, Nat.mod_eq_of_lt (by omega)] at hcount
      exact hcount
    · split
      · exact le_rfl
      · simp only [heldCount]; omega
  | readCksum n =>
    rw [scanByte_readCksum p c s n hs]
    split
    · simp [heldCount]
    · simp [hs]

/-- In SEEK_START the scanner has emitted nothing, for it gets there from SEEK_START only and changes SCAN alone. -/
theorem scanByte_seeksStart {p : Params} {c : Byte} {s : State} (h : seeksStart (scanByte p c s).scan = true) :
    seeksStart s.scan = true ∧ (scanByte p c s).count = s.count ∧ (scanByte p c s).crcAcc = s.crcAcc := by
  cases hs : s.scan with
  | seekStart n =>
    rw [scanByte_seekStart p c s n hs]
    split
    · exact ⟨rfl, rfl, rfl⟩
    · split <;> exact ⟨rfl, rfl, rfl⟩
  | seekEnd n =>
    rw [scanByte_seekEnd p c s n hs] at h
    split at h
    · cases h
    · split at h <;> cases h
  | readCksum n =>
    rw [scanByte_readCksum p c s n hs] at h
    split at h
    · cases h
    · simp [hs, seeksStart] at h

/-- The counters after a bit that does not end a byte. -/
theorem decodeInv_of_lt {s : State} (hr : RunInv s) (hd : DecodeInv s) (hlast : s.cursor.toNat ≠ sampleCount s)
    (hcnt : s.asCnt.toNat < 7) (bit : BitVec 1) :
    DecodeInv { assembleBit bit s with asCnt := s.asCnt + 1 } where
  assembled := by
    have ha := hd.assembled
    have hc := (hr.cursor_succ hlast).1
    show (s.asCnt + 1).toNat = (s.cursor + 1).toNat % 8
    have hadd : (s.asCnt + 1).toNat = s.asCnt.toNat + 1 := BitVec.toNat_add_of_lt (by simp; omega)
    rw [hc, hadd]
    omega
  emitted := by
    have he := hd.emitted
    have hc := (hr.cursor_succ hlast).1
    show s.count.toNat + heldCount s.scan ≤ (s.cursor + 1).toNat / 8
    omega
  silent := hd.silent

/-- The counters after the eighth bit of a byte, which the scanner takes. -/
theorem decodeInv_of_eq {s : State} (hr : RunInv s) (hd : DecodeInv s) (hlast : s.cursor.toNat ≠ sampleCount s)
    (hcnt : s.asCnt.toNat = 7) (bit : BitVec 1) :
    DecodeInv (scanByte s.params (assembleBit bit s).asByte { assembleBit bit s with asCnt := 0 }) := by
  have ha := hd.assembled
  have he := hd.emitted
  have hc := (hr.cursor_succ hlast).1
  have hemitted := scanByte_emitted_le s.params (assembleBit bit s).asByte { assembleBit bit s with asCnt := 0 }
  have hsilent := scanByte_seeksStart (p := s.params) (c := (assembleBit bit s).asByte)
    (s := { assembleBit bit s with asCnt := 0 })
  obtain ⟨scan, stored, crc, out, count, e⟩ :=
    scanByte_frame s.params (assembleBit bit s).asByte { assembleBit bit s with asCnt := 0 }
  rw [e] at hemitted hsilent ⊢
  refine ⟨?_, ?_, fun hseek => ?_⟩
  · show 0 = (s.cursor + 1).toNat % 8
    omega
  · show count.toNat + heldCount scan ≤ (s.cursor + 1).toNat / 8
    have hle : count.toNat + heldCount scan ≤ s.count.toNat + heldCount s.scan + 1 := hemitted
    omega
  · obtain ⟨hbefore, hcount, hcrc⟩ := hsilent hseek
    obtain ⟨hcount0, hcrc0⟩ := hd.silent hbefore
    exact ⟨hcount.trans hcount0, hcrc.trans hcrc0⟩

theorem decodeInv_feedScanner {s : State} (hr : RunInv s) (hd : DecodeInv s) (hlast : s.cursor.toNat ≠ sampleCount s)
    (bit : BitVec 1) : DecodeInv (feedScanner s.params (assembleBit bit s)) := by
  by_cases hcnt : s.asCnt.toNat = 7
  · rw [feedScanner_of_eq (s := assembleBit bit s) hcnt]
    exact decodeInv_of_eq hr hd hlast hcnt bit
  · have hlt : s.asCnt.toNat < 7 := by have := s.asCnt.isLt; omega
    rw [feedScanner_of_lt (s := assembleBit bit s) hlt]
    exact decodeInv_of_lt hr hd hlast hlt bit

/-- DECODE completes, or assembles a bit and feeds the scanner (R222). -/
theorem exec_decodeStep_inv {s t : State} (h : s.Inv) (hen : DecodeEnabled s) (ht : exec .decodeStep s = .next t) :
    t.Inv := by
  have hr := h.run hen.1 hen.2.1
  have hd := hr.decoding hen.2.2
  rw [exec_decodeStep_enabled hen] at ht
  rcases decodeBody_next ht with ⟨rfl, _⟩ | ⟨_, v, _, rfl, _, hlast⟩
  · exact .of_idle h.memory rfl rfl h.pulled
  · rw [← Bool.not_eq_true, samplesExhausted_iff] at hlast
    have hnext := decodeInv_feedScanner hr hd hlast (getLsb v)
    obtain ⟨_, _, _, _, _, _, e⟩ := feedScanner_frame s.params (assembleBit (getLsb v) s)
    rw [e] at hnext ⊢
    exact .of_run h.memory hen.2.1 hen.1 h.pulled ⟨hr.geometry, hr.command,
      (hr.cursor_succ hlast).1.trans_le (hr.cursor_succ hlast).2, hr.capacity,
      fun he => absurd (hen.2.2.symm.trans he) (by decide), fun _ => hnext⟩

/-! ### Every step -/

/-- A port write changes the configuration registers at most (R26, R44). -/
theorem portWrite_frame (reg : BitVec 8) (data : Word64) (s : State) :
    ∃ width height channels depth payloadLen, portWrite reg data s =
      { s with width := width, height := height, channels := channels, depth := depth, payloadLen := payloadLen } := by
  unfold portWrite
  split
  · exact ⟨s.width, s.height, s.channels, s.depth, s.payloadLen, rfl⟩
  · split
    · exact ⟨_, s.height, s.channels, s.depth, s.payloadLen, rfl⟩
    · exact ⟨s.width, _, s.channels, s.depth, s.payloadLen, rfl⟩
    · exact ⟨s.width, s.height, _, s.depth, s.payloadLen, rfl⟩
    · exact ⟨s.width, s.height, s.channels, _, s.payloadLen, rfl⟩
    · exact ⟨s.width, s.height, s.channels, s.depth, _, rfl⟩
    · exact ⟨s.width, s.height, s.channels, s.depth, s.payloadLen, rfl⟩

/-- The step runs an instruction: the engine step STATUS selects, a command word or RESET. -/
def RunsInstr (s t : State) : Prop :=
  ∃ turns i, exec i { s with turns := turns } = .next t ∧
    (engineInstr { s with turns := turns } = some i ∨ (∃ w, i = decodeCommand w) ∨ i = .reset)

/-- The step writes a configuration register of an idle block (R26). -/
def WritesConfig (s t : State) : Prop :=
  s.busy = false ∧ ∃ turns width height channels depth payloadLen, t =
    { s with
      turns := turns, width := width, height := height, channels := channels, depth := depth
      payloadLen := payloadLen }

/-- The step changes the host's buffer and streams, the port's data and the coming turns only. -/
def MovesHostFields (s t : State) : Prop :=
  ∃ m source sink turns portOut, (s.mem.wf = true → m.wf = true) ∧
    t = { s with mem := m, source := source, sink := sink, turns := turns, portOut := portOut }

theorem MovesHostFields.of_turns (s : State) (turns : List Turn) : MovesHostFields s { s with turns := turns } :=
  ⟨s.mem, s.source, s.sink, turns, s.portOut, id, rfl⟩

theorem step_engine_cases {s t : State} {rest : List Turn}
    (hturn : s.turns = .engine :: rest ∨ (s.turns = [] ∧ rest = [])) (h : step s = .next t) : RunsInstr s t ∨ MovesHostFields s t := by
  rw [step_engine hturn] at h
  cases hi : engineInstr { s with turns := rest } with
  | none =>
    rw [hi] at h
    cases h
    exact .inr (.of_turns s rest)
  | some i =>
    rw [hi] at h
    exact .inl ⟨rest, i, h, .inl hi⟩

theorem step_write_cases {s t : State} {reg : BitVec 8} {data : Word64} {rest : List Turn}
    (hturn : s.turns = .host (.write reg data) :: rest) (h : step s = .next t) :
    RunsInstr s t ∨ WritesConfig s t ∨ MovesHostFields s t := by
  by_cases hr : reg = cmdReg
  · subst hr
    rw [step_write_cmd hturn] at h
    exact .inl ⟨rest, _, h, .inr (.inl ⟨_, rfl⟩)⟩
  · rw [step_write hturn hr] at h
    cases h
    by_cases hb : s.busy = true
    · rw [portWrite_busy (s := { s with turns := rest }) hb]
      exact .inr (.inr (.of_turns s rest))
    · obtain ⟨_, _, _, _, _, e⟩ := portWrite_frame reg data { s with turns := rest }
      exact .inr (.inl ⟨by simpa using hb, rest, _, _, _, _, _, e⟩)

/-- Everything a host action but a port write or the reset input can do. -/
theorem step_host_movesHostFields {s t : State} {a : HostAction} {rest : List Turn} (hturn : s.turns = .host a :: rest)
    (hwrite : ∀ reg data, a ≠ .write reg data) (hreset : a ≠ .reset) (h : step s = .next t) : MovesHostFields s t := by
  cases a with
  | write reg data => exact absurd rfl (hwrite reg data)
  | reset => exact absurd rfl hreset
  | buf offset bytes =>
    rw [step_buf hturn] at h
    obtain ⟨_, _, rfl⟩ := hostBuffer_next_iff.1 h
    exact ⟨_, s.source, s.sink, rest, s.portOut, fun hm => Memory.writeBytes_wf hm offset bytes, rfl⟩
  | bufRead offset =>
    rw [step_bufRead hturn] at h
    obtain ⟨_, _, rfl⟩ := hostBuffer_next_iff.1 h
    exact .of_turns s rest
  | attach bytes =>
    rw [step_attach hturn] at h
    obtain ⟨_, _, rfl⟩ := hostBuffer_next_iff.1 h
    exact ⟨_, s.source, s.sink, rest, s.portOut, fun _ => Memory.ofBytes_wf bytes, rfl⟩
  | srcDrop count =>
    rw [step_srcDrop hturn] at h
    split at h <;> cases h
    exact ⟨s.mem, _, s.sink, rest, s.portOut, id, rfl⟩
  | wait =>
    rw [step_wait hturn] at h
    obtain ⟨out, turns, e⟩ := pollStatus_frame { s with turns := rest }
    rw [e] at h
    cases h
    exact ⟨s.mem, s.source, s.sink, turns, out, id, rfl⟩
  | read reg =>
    rw [step_read hturn] at h
    cases h
    exact ⟨s.mem, s.source, s.sink, rest, _, id, rfl⟩
  | src bytes =>
    rw [step_src hturn] at h
    cases h
    exact ⟨s.mem, _, s.sink, rest, s.portOut, id, rfl⟩
  | sinkRead =>
    rw [step_sinkRead hturn] at h
    cases h
    exact .of_turns s rest
  | sinkClear =>
    rw [step_sinkClear hturn] at h
    cases h
    exact ⟨s.mem, s.source, _, rest, s.portOut, id, rfl⟩

/-- Everything a step can do. -/
theorem step_cases {s t : State} (h : step s = .next t) : RunsInstr s t ∨ WritesConfig s t ∨ MovesHostFields s t := by
  cases hturns : s.turns with
  | nil => exact (step_engine_cases (.inr ⟨hturns, rfl⟩) h).imp_right .inr
  | cons turn rest =>
    cases turn with
    | engine => exact (step_engine_cases (.inl hturns) h).imp_right .inr
    | host a =>
      by_cases hwrite : ∃ reg data, a = .write reg data
      · obtain ⟨reg, data, rfl⟩ := hwrite
        exact step_write_cases hturns h
      · by_cases hreset : a = .reset
        · subst hreset
          exact .inl ⟨rest, .reset, (step_reset hturns).symm.trans h, .inr (.inr rfl)⟩
        · exact .inr (.inr (step_host_movesHostFields hturns (fun reg data e => hwrite ⟨reg, data, e⟩) hreset h))

theorem exec_engineInstr_inv {s t : State} {i : Instr} (h : s.Inv) (hi : engineInstr s = some i)
    (ht : exec i s = .next t) : t.Inv := by
  rcases engineInstr_some hi with ⟨rfl, hen⟩ | ⟨rfl, hen⟩ | ⟨rfl, hen⟩
  · exact exec_check_inv h hen ht
  · exact exec_encodeStep_inv h hen ht
  · exact exec_decodeStep_inv h hen ht

/-- A command word is ignored, starts a command, or is refused while idle. -/
theorem exec_decodeCommand_inv {s t : State} {w : Word32} (h : s.Inv) (ht : exec (decodeCommand w) s = .next t) :
    t.Inv := by
  obtain ⟨u, hu, hcase⟩ := exec_decodeCommand w s
  cases hu.symm.trans ht
  rcases hcase with rfl | ⟨o, ho, _, rfl⟩ | ⟨hb, rfl⟩
  · exact h
  · exact beginCommand_inv h.memory ho
  · exact .of_idle h.memory hb (h.idle hb) h.pulled

theorem step_inv {s t : State} (h : s.Inv) (ht : step s = .next t) : t.Inv := by
  rcases step_cases ht with ⟨turns, i, hexec, hi | ⟨w, rfl⟩ | rfl⟩ | ⟨hb, _, _, _, _, _, _, rfl⟩ |
      ⟨_, _, _, _, _, hm, rfl⟩
  · exact exec_engineInstr_inv (h.turns turns) hi hexec
  · exact exec_decodeCommand_inv (h.turns turns) hexec
  · cases hexec
    exact .of_idle h.memory rfl rfl fun hp => by cases hp
  · exact .of_idle h.memory hb (h.idle hb) h.pulled
  · exact h.hostFields (hm h.memory) _ _ _ _

theorem step_params {s t : State} (ht : step s = .next t) : t.params = s.params := by
  rcases step_cases ht with ⟨turns, i, hexec, _⟩ | ⟨_, _, _, _, _, _, _, rfl⟩ | ⟨_, _, _, _, _, _, rfl⟩
  · exact exec_params i { s with turns := turns } t hexec
  · rfl
  · rfl

/-- Settles O53: instruction by instruction the invariant is kept, and the host's other moves touch no condition of it
but the buffer's form; no move writes the parameters. -/
theorem stepKeepsInvariant : Obligations.StepKeepsInvariant :=
  ⟨fun _ _ h ht => step_inv h ht, fun _ _ ht => step_params ht⟩

end Sys2Proof.Machine
end

section
/-! PROOFS. From a state of the invariant with the buffer attached the engine never faults, and it moves on unless it is
held (20_memory.md R73; 60_exceptions.md R270; 70_reset_and_hazards.md R331). -/

namespace Sys2Proof.Machine

/-! ### The engine steps answer a next state -/

theorem exec_check_answers {s : State} (h : s.Inv) (hen : CheckEnabled s) : ∃ t, exec .check s = .next t := by
  have hop := h.command hen.1
  rw [exec_check_enabled hen]
  unfold checkBody
  split
  · cases ho : s.op with
    | none => exact absurd ho hop
    | capacity | validate | encode | decode => exact ⟨_, rfl⟩
  · exact ⟨_, rfl⟩

/-- While a command runs, CURSOR stands at a sample that the attached buffer has, or at S. -/
theorem RunInv.sampleHolds {s : State} (hr : RunInv s) (hb : BufferAttached s)
    (hlast : s.cursor.toNat ≠ sampleCount s) : ∃ a v, SampleHolds s s.cursor.toNat a v :=
  BufferAttached.holds ((geometryOk_iff _ _).1 hr.geometry) hb (lt_of_le_of_ne hr.cursor hlast)

/-- The refill of a running ENCODE gives a byte or holds: FR_IDX never passes M (log 11). -/
theorem EncodeInv.refill_cases {s : State} (he : EncodeInv s) (hframer : framerExhausted s = false) :
    (∃ b u, refill s.params s = .byte b u) ∨ refill s.params s = .hold := by
  cases hrefill : refill s.params s with
  | byte b u => exact .inl ⟨b, u, rfl⟩
  | hold => exact .inr rfl
  | endOfStream =>
    obtain ⟨hbits, hend⟩ := (refill_end_iff _ s).1 hrefill
    have hle := (framerPull_end_iff _ s).1 hend
    exact absurd (he.frIdx_lt hbits hframer) (not_lt.2 hle)

theorem exec_encodeStep_answers {s : State} (h : s.Inv) (hb : BufferAttached s) (hen : EncodeEnabled s) :
    ∃ t, exec .encodeStep s = .next t := by
  have hr := h.run hen.1 hen.2.1
  rw [exec_encodeStep_enabled hen]
  unfold encodeBody
  by_cases hframer : framerExhausted s = true
  · exact ⟨_, if_pos hframer⟩
  · rw [if_neg hframer]
    by_cases hlast : samplesExhausted s = true
    · exact ⟨_, if_pos hlast⟩
    · rw [if_neg hlast]
      rcases (hr.encoding hen.2.2).refill_cases (by simpa using hframer) with ⟨b, u, hrefill⟩ | hhold
      · obtain ⟨a, v, hv⟩ := hr.sampleHolds hb (mt (samplesExhausted_iff s).2 hlast)
        obtain ⟨_, _, _, _, _, _, rfl⟩ := refill_frame hrefill
        exact ⟨_, encodeSample_of_refill hrefill hv⟩
      · exact ⟨s, by rw [encodeSample, hhold]⟩

theorem exec_decodeStep_answers {s : State} (h : s.Inv) (hb : BufferAttached s) (hen : DecodeEnabled s) :
    ∃ t, exec .decodeStep s = .next t := by
  have hr := h.run hen.1 hen.2.1
  by_cases hend : s.scan = .readCksum 4 ∨ s.cursor.toNat = sampleCount s
  · exact ⟨_, exec_decodeStep_complete hen hend⟩
  · rw [not_or] at hend
    obtain ⟨a, v, hv⟩ := hr.sampleHolds hb hend.2
    exact ⟨_, exec_decodeStep_feed hen hend.1 hend.2 hv⟩

theorem exec_engineInstr_answers {s : State} {i : Instr} (h : s.Inv) (hb : BufferAttached s)
    (hi : engineInstr s = some i) : ∃ t, exec i s = .next t := by
  rcases engineInstr_some hi with ⟨rfl, hen⟩ | ⟨rfl, hen⟩ | ⟨rfl, hen⟩
  · exact exec_check_answers h hen
  · exact exec_encodeStep_answers h hb hen
  · exact exec_decodeStep_answers h hb hen

/-! ### No step faults -/

theorem step_engine_ne_fault {s : State} {rest : List Turn} (h : s.Inv) (hb : BufferAttached s)
    (hturn : s.turns = .engine :: rest ∨ (s.turns = [] ∧ rest = [])) (f : Fault) : step s ≠ .fault f := by
  rw [step_engine hturn]
  cases hi : engineInstr { s with turns := rest } with
  | none => nofun
  | some i =>
    obtain ⟨t, ht⟩ := exec_engineInstr_answers (h.turns rest) hb hi
    simp [ht]

theorem hostBuffer_ne_fault (ok : Bool) (t s : State) (f : Fault) : hostBuffer ok t s ≠ .fault f := by
  unfold hostBuffer
  split
  · nofun
  · split <;> nofun

/-- No action of the host faults: its moves are answered or refused. -/
theorem step_host_ne_fault {s : State} {a : HostAction} {rest : List Turn} (hturn : s.turns = .host a :: rest)
    (f : Fault) : step s ≠ .fault f := by
  cases a with
  | write reg data =>
    by_cases hr : reg = cmdReg
    · subst hr
      rw [step_write_cmd hturn, exec_decodeCommand_eq_acceptWord]
      nofun
    · rw [step_write hturn hr]; nofun
  | buf offset bytes => rw [step_buf hturn]; exact hostBuffer_ne_fault _ _ _ f
  | bufRead offset => rw [step_bufRead hturn]; exact hostBuffer_ne_fault _ _ _ f
  | attach bytes => rw [step_attach hturn]; exact hostBuffer_ne_fault _ _ _ f
  | srcDrop count => rw [step_srcDrop hturn]; split <;> nofun
  | read reg => rw [step_read hturn]; nofun
  | src bytes => rw [step_src hturn]; nofun
  | sinkRead => rw [step_sinkRead hturn]; nofun
  | sinkClear => rw [step_sinkClear hturn]; nofun
  | wait => rw [step_wait hturn]; nofun
  | reset => rw [step_reset hturn]; nofun

/-- Settles O58: the engine's steps answer under the invariant, and the host's moves never fault. -/
theorem invariantStepNeverFaults : Obligations.InvariantStepNeverFaults := by
  intro s h hb f
  cases hturns : s.turns with
  | nil => exact step_engine_ne_fault h hb (.inr ⟨hturns, rfl⟩) f
  | cons turn rest =>
    cases turn with
    | engine => exact step_engine_ne_fault h hb (.inl hturns) f
    | host a => exact step_host_ne_fault hturns f

/-! ### The engine moves on -/

/-- An engine turn completes the command, enters STAGE RUN, advances CURSOR by 1, or is held on an empty source (R331,
R70). -/
def MovesOn (s t : State) : Prop :=
  (t.busy = false ∧ t.done = true) ∨ (s.stage = .check ∧ t.stage = .run ∧ t.busy = true) ∨
    (t.busy = true ∧ t.cursor.toNat = s.cursor.toNat + 1) ∨
    (t = s ∧ s.op = .encode ∧ s.frBits = 0 ∧ s.source = [] ∧ 4 ≤ s.frIdx.toNat ∧
      s.frIdx.toNat < s.payloadLen.toNat + 4)

theorem exec_check_movesOn {s t : State} (hen : CheckEnabled s) (ht : exec .check s = .next t) : MovesOn s t := by
  rw [exec_check_enabled hen] at ht
  rcases checkBody_next ht with ⟨_, rfl⟩ | ⟨_, u, rfl, hcase⟩
  · exact .inl ⟨rfl, rfl⟩
  · rcases hcase with ⟨_, rfl⟩ | ⟨_, _, rfl⟩ | ⟨_, _, rfl⟩ | ⟨_, _, rfl⟩ | ⟨_, _, rfl⟩ | ⟨_, rfl⟩
    · exact .inl ⟨rfl, rfl⟩
    · exact .inl ⟨rfl, rfl⟩
    · exact .inl ⟨rfl, rfl⟩
    · exact .inl ⟨rfl, rfl⟩
    · exact .inr (.inl ⟨hen.2, rfl, hen.1⟩)
    · exact .inr (.inl ⟨hen.2, rfl, hen.1⟩)

theorem exec_encodeStep_movesOn {s t : State} (h : s.Inv) (hen : EncodeEnabled s) (ht : exec .encodeStep s = .next t) :
    MovesOn s t := by
  rw [exec_encodeStep_enabled hen] at ht
  rcases encodeBody_next ht with ⟨rfl, _⟩ | ⟨rfl, hhold, _⟩ | ⟨b, u, a, v, hrefill, _, rfl, _, hlast⟩
  · exact .inl ⟨rfl, rfl⟩
  · obtain ⟨hbits, hpull⟩ := (refill_hold_iff _ t).1 hhold
    obtain ⟨h4, hlt, hsource⟩ := (framerPull_hold_iff _ t).1 hpull
    exact .inr (.inr (.inr ⟨rfl, hen.2.2, Fin.ext hbits, hsource, h4, hlt⟩))
  · rw [← Bool.not_eq_true, samplesExhausted_iff] at hlast
    obtain ⟨_, _, _, _, _, _, rfl⟩ := refill_frame hrefill
    exact .inr (.inr (.inl ⟨hen.1, ((h.run hen.1 hen.2.1).cursor_succ hlast).1⟩))

theorem exec_decodeStep_movesOn {s t : State} (h : s.Inv) (hen : DecodeEnabled s) (ht : exec .decodeStep s = .next t) :
    MovesOn s t := by
  rw [exec_decodeStep_enabled hen] at ht
  rcases decodeBody_next ht with ⟨rfl, _⟩ | ⟨_, v, _, rfl, _, hlast⟩
  · exact .inl ⟨rfl, rfl⟩
  · rw [← Bool.not_eq_true, samplesExhausted_iff] at hlast
    obtain ⟨_, _, _, _, _, _, e⟩ := feedScanner_frame s.params (assembleBit (getLsb v) s)
    rw [e]
    exact .inr (.inr (.inl ⟨hen.1, ((h.run hen.1 hen.2.1).cursor_succ hlast).1⟩))

/-- A BUSY block of the invariant has an engine step. -/
theorem State.Inv.engineInstr {s : State} (h : s.Inv) (hbusy : s.busy = true) : ∃ i, engineInstr s = some i := by
  cases hstage : s.stage with
  | check => exact ⟨_, engineInstr_check ⟨hbusy, hstage⟩⟩
  | run =>
    rcases (h.run hbusy hstage).command with ho | ho
    · exact ⟨_, engineInstr_encode ⟨hbusy, hstage, ho⟩⟩
    · exact ⟨_, engineInstr_decode ⟨hbusy, hstage, ho⟩⟩

/-- A silent host's turn runs the engine step STATUS selects. -/
theorem step_silent {s : State} {i : Instr} (hturns : s.turns = []) (hi : engineInstr s = some i) :
    step s = exec i s := by
  have hs : { s with turns := [] } = s := by cases s; cases hturns; rfl
  rw [step_engine_run (.inr ⟨hturns, rfl⟩) (i := i) (by rw [hs, hi]), hs]

/-- Settles O60: the step STATUS selects answers, and each of the three moves on. -/
theorem busyEngineMovesOnUnlessHeld : Obligations.BusyEngineMovesOnUnlessHeld := by
  intro s h hb hbusy hturns
  obtain ⟨i, hi⟩ := h.engineInstr hbusy
  obtain ⟨t, ht⟩ := exec_engineInstr_answers h hb hi
  refine ⟨t, (step_silent hturns hi).trans ht, ?_⟩
  rcases engineInstr_some hi with ⟨rfl, hen⟩ | ⟨rfl, hen⟩ | ⟨rfl, hen⟩
  · exact exec_check_movesOn hen ht
  · exact exec_encodeStep_movesOn h hen ht
  · exact exec_decodeStep_movesOn h hen ht

end Sys2Proof.Machine
end

section
/-! PROOFS. Whole commands: a DECODE completes in time (43_marker_scan.md R224), and an ENCODE embeds the framed stream
(42_sample_codec.md R188). -/

namespace Sys2Proof.Machine

/-! ### Runs -/

section
variable {M : Host.Core} {s t : M.State}

theorem run_succ_of_step (h : M.step s = .next t) (k : Nat) : M.run (k + 1) s = M.run k t := by
  rw [Host.Core.run, h]

/-- A run continued from where it stands. -/
theorem run_add_of_run {m : Nat} (h : M.run m s = .next t) (n : Nat) : M.run (m + n) s = M.run n t := by
  induction m generalizing s with
  | zero =>
    cases h
    rw [Nat.zero_add]
  | succ m ih =>
    rw [Host.Core.run] at h
    cases hstep : M.step s with
    | next u =>
      rw [hstep] at h
      rw [Nat.add_right_comm, run_succ_of_step hstep, ih h]
    | fault f => rw [hstep] at h; cases h
    | refused r => rw [hstep] at h; cases h

end

theorem core_run_succ {s t : State} (h : step s = .next t) (k : Nat) : core.run (k + 1) s = core.run k t :=
  run_succ_of_step (M := core) h k

theorem core_run_one {s t : State} (h : step s = .next t) : core.run 1 s = .next t := core_run_succ h 0

/-! ### DECODE (R224) -/

/-- `t` is the end of a DECODE that ran from `s`: completed with one of its codes, the buffer and the source untouched. -/
def DecodeDone (s t : State) : Prop :=
  t.busy = false ∧ t.done = true ∧ t.mem = s.mem ∧ t.source = s.source ∧
    t.result ∈ [ResultCode.ok, .startNotFound, .endNotFound, .checksumMismatch]

theorem decodeResult_mem (s : State) :
    decodeResult s ∈ [ResultCode.ok, .startNotFound, .endNotFound, .checksumMismatch] := by
  unfold decodeResult
  split
  · decide
  · decide
  · split
    · split <;> decide
    · decide

theorem decodeDone_decodeComplete (p : Params) (s : State) : DecodeDone s (decodeComplete p s) :=
  ⟨rfl, rfl, rfl, rfl, decodeResult_mem _⟩

/-- From STAGE RUN a DECODE with at most `n` samples left completes within `n + 1` steps. -/
theorem decode_run_completes (n : Nat) {s : State} (h : s.Inv) (hen : DecodeEnabled s) (hb : BufferAttached s)
    (hturns : s.turns = []) (hn : sampleCount s ≤ s.cursor.toNat + n) :
    ∃ (k : Nat) (t : State), k ≤ n + 1 ∧ core.run k s = .next t ∧ DecodeDone s t := by
  have hr := h.run hen.1 hen.2.1
  have hstep := step_silent hturns (engineInstr_decode hen)
  induction n generalizing s with
  | zero =>
    have hlast : s.cursor.toNat = sampleCount s := le_antisymm hr.cursor hn
    have hcomplete := hstep.trans (exec_decodeStep_complete hen (.inr hlast))
    exact ⟨1, _, le_rfl, core_run_one hcomplete, decodeDone_decodeComplete _ _⟩
  | succ n ih =>
    by_cases hend : s.scan = .readCksum 4 ∨ s.cursor.toNat = sampleCount s
    · have hcomplete := hstep.trans (exec_decodeStep_complete hen hend)
      exact ⟨1, _, by omega, core_run_one hcomplete, decodeDone_decodeComplete _ _⟩
    · rw [not_or] at hend
      obtain ⟨a, v, hv⟩ := hr.sampleHolds hb hend.2
      have hfeed := exec_decodeStep_feed hen hend.1 hend.2 hv
      have hinv := exec_decodeStep_inv h hen hfeed
      obtain ⟨_, _, _, _, _, _, e⟩ := feedScanner_frame s.params (assembleBit (getLsb v) s)
      rw [e] at hfeed hinv
      have hcursor := (hr.cursor_succ hend.2).1
      have hsamples : sampleCount s ≤ (s.cursor + 1).toNat + n := by omega
      obtain ⟨k, t, hk, hrun, hdone⟩ := ih hinv hen hb hturns hsamples (hinv.run hen.1 hen.2.1)
        (step_silent hturns (engineInstr_decode hen))
      exact ⟨k + 1, t, by omega, (core_run_succ (hstep.trans hfeed) k).trans hrun, hdone⟩

/-- The state in which a command's loop begins: accepted, and past its CHECK (R130, R134). -/
def inRun (o : Opcode) (s : State) : State :=
  { beginCommand s.params o s with capacity := BitVec.ofNat 64 (capacityBytes s), stage := .run }

/-- Settles O51: acceptance, CHECK, and then one step for each sample at most, and one to complete. -/
theorem decodeCompletesInTime : Obligations.DecodeCompletesInTime := by
  intro s hturns hidle hwf hg hb
  have haccept : exec .decode s = .next (beginCommand s.params .decode s) :=
    congrArg _ (startCommand_idle hidle s.params .decode)
  have hinv : (beginCommand s.params .decode s).Inv := beginCommand_inv hwf (by decide)
  have hcheck : exec .check (beginCommand s.params .decode s) = .next (inRun .decode s) :=
    exec_check_decode ⟨rfl, rfl⟩ rfl hg
  have hfirst : step (beginCommand s.params .decode s) = .next (inRun .decode s) :=
    (step_silent (s := beginCommand s.params .decode s) hturns (engineInstr_check ⟨rfl, rfl⟩)).trans hcheck
  obtain ⟨k, t, hk, hrun, hbusy, hdone, hmem, hsource, hresult⟩ :=
    decode_run_completes (sampleCount s) (exec_check_inv hinv ⟨rfl, rfl⟩ hcheck) ⟨rfl, rfl, rfl⟩ hb hturns
      (Nat.le_add_left _ _)
  exact ⟨_, k + 1, t, haccept, by omega, (core_run_succ hfirst k).trans hrun, hbusy, hdone, hmem, hsource, hresult⟩

/-! ### ENCODE: the buffer (R188) -/

/-- The buffer `m` is that of `s` with the first `k` bits of the frame in the low bits of the first `k` samples. -/
structure StreamWritten (s : State) (frame : List Byte) (k : Nat) (m : Memory) : Prop where
  wf : m.wf = true
  size : m.size = s.mem.size
  written : ∀ j, j < k → ∀ a v, SampleHolds s j a v → m.read a = some (setLsb v (framedBit frame j))
  kept : ∀ b, (∀ j, j < k → sampleAddr s j ≠ some b) → m.read b = s.mem.read b

theorem StreamWritten.zero {s : State} (h : s.mem.wf = true) (frame : List Byte) : StreamWritten s frame 0 s.mem :=
  ⟨h, rfl, fun _ hj => absurd hj (Nat.not_lt_zero _), fun _ _ => rfl⟩

/-- The next sample's byte is still the one of `s`. -/
theorem StreamWritten.read_next {s : State} {frame : List Byte} {k a : Nat} {v : Byte} {m : Memory}
    (h : StreamWritten s frame k m) (hv : SampleHolds s k a v) : m.read a = some v := by
  refine (h.kept a fun j hj ha => ?_).trans hv.2.2
  have hnext := hv.2.1
  have hprev := (sampleAddr_eq_some_iff s j a).1 ha
  omega

/-- The next bit, written into the next sample. -/
theorem StreamWritten.succ {s : State} {frame : List Byte} {k a : Nat} {v : Byte} {m : Memory}
    (h : StreamWritten s frame k m) (hv : SampleHolds s k a v) :
    StreamWritten s frame (k + 1) (m.write a (setLsb v (framedBit frame k))) where
  wf := Memory.write_wf h.wf a _
  size := (Memory.write_size m a _).trans h.size
  written j hj b w hw := by
    by_cases hjk : j = k
    · subst hjk
      obtain rfl : b = a := (SampleHolds.offset_inj rfl hw hv).2 rfl
      obtain rfl : w = v := Option.some.inj (hw.2.2.symm.trans hv.2.2)
      exact Memory.read_write_same h.wf (Memory.lt_size_of_read (h.read_next hv)) _
    · have hne : b ≠ a := fun hab => hjk ((SampleHolds.offset_inj rfl hw hv).1 hab)
      exact (Memory.read_write_other h.wf hne _).trans (h.written j (by omega) b w hw)
  kept b hb := by
    have hne : b ≠ a := by
      rintro rfl
      exact hb k k.lt_succ_self ((sampleAddr_eq_some_iff s k b).2 hv.2.1)
    exact (Memory.read_write_other h.wf hne _).trans (h.kept b fun j hj => hb j (by omega))

/-! ### ENCODE: the loop (R185, R186) -/

/-- What an ENCODE loop that began in `s` has done after `k` steps, `i` bytes of the framed stream pulled: FR_SHIFT holds
the bits left of the last one, shifted to the top. -/
structure EncodeAt (s : State) (payload rest : List Byte) (k i : Nat) (t : State) : Prop where
  frame : ∃ m ix c src sh bi co cu, t = { s with
    mem := m, frIdx := ix, crcAcc := c, source := src, frShift := sh, frBits := bi, count := co, cursor := cu }
  memory : StreamWritten s (framedStream s.params payload) k t.mem
  framer : FramerAt s.params payload rest i t
  index_le : i ≤ payload.length + 12
  cursor : t.cursor.toNat = k
  count : t.count = t.frIdx
  bits : k + t.frBits.val = 8 * i
  shift : t.frShift = (framedStream s.params payload).getD (i - 1) 0 <<< (8 - t.frBits.val)

/-- Bit 7 of a byte shifted left is a lower bit of the byte. -/
theorem shiftLeft_top_bit (x : Byte) {b : Nat} (h0 : 0 < b) (h8 : b ≤ 8) :
    ((x <<< (8 - b)) >>> 7).setWidth 1 = (x >>> (b - 1)).setWidth 1 := by
  apply BitVec.eq_of_toNat_eq
  simp only [BitVec.toNat_setWidth, BitVec.toNat_ushiftRight, BitVec.toNat_shiftLeft, Nat.shiftRight_eq_div_pow,
    Nat.shiftLeft_eq]
  interval_cases b <;> omega

section
variable {s t : State} {payload rest : List Byte} {k i : Nat}

theorem EncodeAt.enabled (h : EncodeAt s payload rest k i t) (hrun : EncodeEnabled s) : EncodeEnabled t := by
  obtain ⟨_, _, _, _, _, _, _, _, rfl⟩ := h.frame
  exact hrun

theorem EncodeAt.turns_nil (h : EncodeAt s payload rest k i t) (hturns : s.turns = []) : t.turns = [] := by
  obtain ⟨_, _, _, _, _, _, _, _, rfl⟩ := h.frame
  exact hturns

theorem EncodeAt.params_eq (h : EncodeAt s payload rest k i t) : t.params = s.params := by
  obtain ⟨_, _, _, _, _, _, _, _, rfl⟩ := h.frame
  rfl

theorem EncodeAt.sampleCount_eq (h : EncodeAt s payload rest k i t) : sampleCount t = sampleCount s := by
  obtain ⟨_, _, _, _, _, _, _, _, rfl⟩ := h.frame
  rfl

/-- The next sample is where it was, with the byte it had. -/
theorem EncodeAt.sampleHolds (h : EncodeAt s payload rest k i t) {a : Nat} {v : Byte} (hv : SampleHolds s k a v) :
    SampleHolds t t.cursor.toNat a v := by
  have hread := h.memory.read_next hv
  rw [h.cursor]
  obtain ⟨_, _, _, _, _, _, _, _, rfl⟩ := h.frame
  exact ⟨hv.1, hv.2.1, hread⟩

/-- The bit that the loop embeds next is the next bit of the framed stream (R100). -/
theorem EncodeAt.nextFrameBit_eq (h : EncodeAt s payload rest k i t) (hbits : 0 < t.frBits.val) :
    nextFrameBit t = framedBit (framedStream s.params payload) k := by
  have hb := h.bits
  have h8 : t.frBits.val ≤ 8 := Nat.le_of_lt_succ t.frBits.isLt
  have hbyte : k / 8 = i - 1 := by omega
  have hbit : 7 - k % 8 = t.frBits.val - 1 := by omega
  rw [nextFrameBit, framedBit, h.shift, shiftLeft_top_bit _ hbits h8, hbyte, hbit]

/-- A refill gives the loop bits to embed: those left, or the eight of the next byte (R185). -/
theorem EncodeAt.refill (h : EncodeAt s payload rest k i t) (hk : k < 8 * (payload.length + 12))
    (hlt : payload.length + 12 < 2 ^ 64) :
    ∃ j b u, refill t.params t = .byte b u ∧ 0 < u.frBits.val ∧ EncodeAt s payload rest k j u := by
  have hb := h.bits
  obtain ⟨m, ix, c, src, sh, bi, co, cu, rfl⟩ := h.frame
  by_cases h0 : bi.val = 0
  · have hi : i < payload.length + 12 := by dsimp only at hb; omega
    have hpull := h.framer.pullsByte hi
    refine ⟨i + 1, _, _, (refill_empty_byte_iff _ _ _ _ h0).2 ⟨_, _, hpull, rfl⟩, Nat.succ_pos 7, ?_⟩
    exact ⟨⟨_, _, _, _, _, _, _, _, rfl⟩, h.memory, h.framer.next (by omega) rfl rfl rfl rfl, hi, h.cursor,
      congrArg (· + 1) h.count, by dsimp only at hb ⊢; omega, (BitVec.shiftLeft_zero _).symm⟩
  · exact ⟨i, _, _, refill_held _ _ (by dsimp only; omega), by dsimp only; omega, h⟩

/-- One bit embedded. -/
theorem EncodeAt.embedded (h : EncodeAt s payload rest k i t) (hbits : 0 < t.frBits.val) {a : Nat} {v : Byte}
    (hv : SampleHolds s k a v) (hlt : k + 1 < 2 ^ 64) : EncodeAt s payload rest (k + 1) i (embedded t a v) := by
  have hb := h.bits
  have hbit := h.nextFrameBit_eq hbits
  have hcursor : (t.cursor + 1).toNat = k + 1 := by
    rw [BitVec.toNat_add, h.cursor]
    exact Nat.mod_eq_of_lt hlt
  have hshift : t.frShift <<< 1 = (framedStream s.params payload).getD (i - 1) 0 <<< (8 - (t.frBits.val - 1)) := by
    rw [h.shift, ← BitVec.shiftLeft_add]
    congr 1
    omega
  have hframer := h.framer
  have hmem := h.memory.succ hv
  have hcount := h.count
  have hleft : k + 1 + (t.frBits.val - 1) = 8 * i := by omega
  rw [← hbit] at hmem
  obtain ⟨m, ix, c, src, sh, bi, co, cu, rfl⟩ := h.frame
  exact ⟨⟨_, _, _, _, _, _, _, _, rfl⟩, hmem, ⟨hframer.index, hframer.len, hframer.crc, hframer.source⟩, h.index_le,
    hcursor, hcount, hleft, hshift⟩

/-- One step of the loop (R186). -/
theorem EncodeAt.step_next (h : EncodeAt s payload rest k i t) (hrun : EncodeEnabled s) (hturns : s.turns = [])
    (hg : GeometryLegal s.params s) (hb : BufferAttached s) (hfit : 8 * (payload.length + 12) ≤ sampleCount s)
    (hk : k < 8 * (payload.length + 12)) : ∃ j u, step t = .next u ∧ EncodeAt s payload rest (k + 1) j u := by
  have hS := hg.sampleCount_lt
  have hbits := h.bits
  have hlen := h.framer.len
  have hindex := h.framer.index
  obtain ⟨a, v, hv⟩ := hb.holds hg (show k < sampleCount s by omega)
  obtain ⟨j, b, u, hrefill, hleft, hu⟩ := h.refill hk (by omega)
  have hframer : ¬ (t.frBits.val = 0 ∧ t.frIdx.toNat = t.payloadLen.toNat + 12) := by omega
  have hlast : t.cursor.toNat ≠ sampleCount t := by rw [h.cursor, h.sampleCount_eq]; omega
  refine ⟨j, _, ?_, hu.embedded hleft hv (by omega)⟩
  rw [step_silent (h.turns_nil hturns) (engineInstr_encode (h.enabled hrun))]
  exact exec_encodeStep_embed (h.enabled hrun) hframer hlast hrefill (hu.sampleHolds hv)

/-- The loop's first `k` steps. -/
theorem encodeAt_run (hstart : EncodeAt s payload rest 0 0 s) (hrun : EncodeEnabled s) (hturns : s.turns = [])
    (hg : GeometryLegal s.params s) (hb : BufferAttached s) (hfit : 8 * (payload.length + 12) ≤ sampleCount s)
    (hk : k ≤ 8 * (payload.length + 12)) :
    ∃ (i : Nat) (t : State), core.run k s = .next t ∧ EncodeAt s payload rest k i t := by
  induction k with
  | zero => exact ⟨0, s, rfl, hstart⟩
  | succ k ih =>
    obtain ⟨i, t, hloop, hat⟩ := ih (by omega)
    obtain ⟨j, u, hstep, hnext⟩ := hat.step_next hrun hturns hg hb hfit hk
    exact ⟨j, u, (run_add_of_run (M := core) hloop 1).trans (core_run_one hstep), hnext⟩

/-- After its last bit the loop has taken the whole payload and has no bits left, and its next step completes (R187). -/
theorem EncodeAt.finished (h : EncodeAt s payload rest (8 * (payload.length + 12)) i t) (hrun : EncodeEnabled s)
    (hturns : s.turns = []) : i = payload.length + 12 ∧ t.frBits = 0 ∧ t.frShift = 0 ∧ t.source = rest ∧
      t.crcAcc = crcFold s.params payload ∧ step t = .next (encodeComplete s.params t) := by
  have hbits := h.bits
  have hle := h.index_le
  have hi : i = payload.length + 12 := by omega
  have h0 : t.frBits.val = 0 := by omega
  have hframer := h.framer
  have hshift := h.shift
  subst hi
  have hsub : payload.length ≤ payload.length + 12 - 4 := by omega
  have hexhausted : t.frBits.val = 0 ∧ t.frIdx.toNat = t.payloadLen.toNat + 12 :=
    ⟨h0, by rw [hframer.index, hframer.len]⟩
  refine ⟨rfl, Fin.ext h0, ?_, ?_, ?_, ?_⟩
  · rw [hshift, h0]
    exact BitVec.shiftLeft_eq_zero le_rfl
  · rw [hframer.source, List.drop_of_length_le hsub, List.nil_append]
  · rw [hframer.crc, List.take_of_length_le hsub]
  · have hen := h.enabled hrun
    rw [step_silent (h.turns_nil hturns) (engineInstr_encode hen), exec_encodeStep_complete hen (.inl hexhausted),
      h.params_eq]

end

/-- The loop begins with nothing pulled and nothing written. -/
theorem encodeAt_inRun {s : State} {payload rest : List Byte} (hwf : s.mem.wf = true)
    (hlen : s.payloadLen.toNat = payload.length) (hsource : s.source = payload ++ rest) :
    EncodeAt (inRun .encode s) payload rest 0 0 (inRun .encode s) where
  frame := ⟨_, _, _, _, _, _, _, _, rfl⟩
  memory := .zero (s := inRun .encode s) hwf _
  framer := ⟨rfl, hlen, rfl, hsource⟩
  index_le := Nat.zero_le _
  cursor := rfl
  count := rfl
  bits := rfl
  shift := (BitVec.shiftLeft_eq_zero le_rfl).symm

/-- Settles O38: acceptance, CHECK, one step for each bit of the framed stream, and one to complete. -/
theorem encodeEmbedsFramedStream : Obligations.EncodeEmbedsFramedStream := by
  intro s payload rest hturns hidle hwf hg hb hlen hcap hsource
  have hfit : 8 * (payload.length + 12) ≤ sampleCount s := by
    have hdiv : sampleCount s / 8 * 8 ≤ sampleCount s := Nat.div_mul_le_self _ _
    have hcap' : payload.length + 12 ≤ sampleCount s / 8 := hcap
    omega
  have haccept : exec .encode s = .next (beginCommand s.params .encode s) :=
    congrArg _ (startCommand_idle hidle s.params .encode)
  have hfits : exceedsCapacity (beginCommand s.params .encode s) = false := by
    have hle : s.payloadLen.toNat + 12 ≤ capacityBytes s := hlen ▸ hcap
    rw [← Bool.not_eq_true, exceedsCapacity_iff]
    exact not_lt.2 hle
  have hcheck : exec .check (beginCommand s.params .encode s) = .next (inRun .encode s) := by
    rw [exec_check_encode (s := beginCommand s.params .encode s) ⟨rfl, rfl⟩ rfl hg, hfits]
    rfl
  have hfirst : step (beginCommand s.params .encode s) = .next (inRun .encode s) :=
    (step_silent (s := beginCommand s.params .encode s) hturns (engineInstr_check ⟨rfl, rfl⟩)).trans hcheck
  obtain ⟨i, t, hloop, hat⟩ := encodeAt_run (encodeAt_inRun hwf hlen hsource) ⟨rfl, rfl, rfl⟩ hturns hg hb hfit le_rfl
  obtain ⟨hi, hbits, hshift, hrest, hcrc, hlast⟩ := hat.finished ⟨rfl, rfl, rfl⟩ hturns
  have hrun : core.run (1 + 8 * (payload.length + 12) + 1) (beginCommand s.params .encode s) =
      .next (encodeComplete s.params t) := by
    rw [Nat.add_assoc, run_add_of_run (M := core) (core_run_one hfirst), run_add_of_run (M := core) hloop]
    exact core_run_one hlast
  have hwritten := hat.memory.written
  have hkept := hat.memory.kept
  have hindex : t.frIdx.toNat = payload.length + 12 := hat.framer.index.trans hi
  have hcount : t.count.toNat = payload.length + 12 := by rw [hat.count, hindex]
  have hcursor := hat.cursor
  obtain ⟨_, _, _, _, _, _, _, _, e⟩ := hat.frame
  refine ⟨_, encodeComplete s.params t, haccept, hrun, fun k hk => ?_, fun b hb => hkept b hb, hrest, ?_, ?_, hcount,
    hcursor, hindex, hbits, hshift, hcrc, ?_, ?_, ?_, ?_, ?_, rfl, rfl, rfl, ?_⟩
  · obtain ⟨a, v, hv⟩ := hb.holds hg (show k < sampleCount s by omega)
    exact ⟨a, v, hv, hwritten k hk a v hv⟩
  · rw [e]; rfl
  · exact congrArg (crcFinal s.params) hcrc
  · rw [e]; exact hg.capacity_toNat
  all_goals rw [e]; rfl

end Sys2Proof.Machine
end
